-- ==== Sys2Proof/Word.lean ====
section
/-! DEFINITION. The word of the machine: a beat of 64 bits (spec/30_encoding.md R60; a packed word of STORE has the same
width, spec/00_scope.md R7). Everything that slices a beat or reads a field of it is in Machine/Operands.lean. -/

namespace Sys2Proof

/-- One 64-bit unit of a packet, and one packed word of STORE (R7, R17, R60). Bit 0 is the least significant (R12). -/
abbrev Beat := BitVec 64

end Sys2Proof
end

