-- ==== Sys2Proof/Config.lean ====
section
/-! DEFINITION. What is fixed for the life of one block (spec/00_scope.md R6 to R11): the value domain, the table
geometry, the number of tables and their contents. TABLE_DATA is the spec's OPEN parameter: all but the one entry the
spec fixes is an uninterpreted constant, so nothing can be proved of it. -/

namespace Sys2Proof.Config

/-- The smallest valid Value (R6). -/
abbrev vmin : Int := -35

/-- The largest valid Value (R6). -/
abbrev vmax : Int := 40

/-- The distance between neighbouring valid Values (R6). -/
abbrev valueStep : Int := 5

/-- The level of the Value 0 (R6, R8). -/
abbrev bias : Int := 7

/-- The width of a slot in bits (R6). -/
abbrev slotBits : Nat := 4

/-- The number of levels (R6). -/
abbrev levels : Nat := 16

/-- The number of squares of a table (R7). -/
abbrev squares : Nat := 64

/-- The number of slots of a packed word (R7). -/
abbrev slotsPerWord : Nat := 16

/-- The number of packed words of a table (R7). -/
abbrev wordsPerTable : Nat := 4

/-- NUM_TABLES of this block (R9). The model itself takes any number in 1 to 256, as the field State.numTables; the reset
state of this block has this one (log entry 15). -/
abbrev numTables : Nat := 7

/-- The seven tables by name (R9). The names have no effect on any command (spec/93_implementation_defined.md I3). -/
inductive TableName where
  | pawn | knight | bishop | rook | queen | kingMidgame | kingEndgame
deriving DecidableEq, Repr

/-- The table id of a table's name (R9). -/
def TableName.tableId : TableName → Nat
  | .pawn => 0
  | .knight => 1
  | .bishop => 2
  | .rook => 3
  | .queen => 4
  | .kingMidgame => 5
  | .kingEndgame => 6

/-- FREE VALUE: the entries of TABLE_DATA that no source gives (R10: OPEN; spec/92_eei_decisions.md D6). Log entry 1. -/
opaque tableDataOpen : Nat → Nat → BitVec 32

/-- TABLE_DATA: the entry of table `k` and square `s` (R10). The spec fixes one entry, TABLE_DATA(0, 11) = 20, and
leaves every other one open. Log entry 1. -/
def tableData (k s : Nat) : BitVec 32 := if k = 0 ∧ s = 11 then 20#32 else tableDataOpen k s

end Sys2Proof.Config
end

