-- ==== Sys2Proof/Syntax.lean ====
section
/-! DEFINITION. The commands: one constructor for every row of spec/opcode_table.json. An operand that the spec reads as
an integer (spec/30_encoding.md R63, R66) is an integer here; a packed word is a beat (R67). -/

namespace Sys2Proof

/-- A request the block can execute, with its operands (R2, R64). `score` is the row SCORE: another name of DECODESET's
words (R76, R147), so the decoder never gives it (log entry 6). -/
inductive Instr where
  /-- VALIDATE: check one Value (spec/40_validate.md R102). -/
  | validate (value : Int)
  /-- LEVEL: check one Value and give its level (spec/40_validate.md R104). -/
  | level (value : Int)
  /-- ENCODE: check and pack the 64 Values of one table, in square order (spec/41_encode.md R122). -/
  | encode (values : List Int)
  /-- DECODE: unpack one square of four packed words (spec/42_decode.md R143). -/
  | decode (square : Int) (w0 w1 w2 w3 : Beat)
  /-- DECODESET: look one square of one table up in the TableSet (spec/42_decode.md R145). -/
  | decodeset (table square : Int)
  /-- SCORE: the evaluator's query (spec/42_decode.md R147). -/
  | score (table square : Int)
  /-- BOOTINFO: report the outcome of construction (spec/43_control.md R161). -/
  | bootinfo
deriving DecidableEq, Repr

/-- The command a disassembler shows for a command's words: SCORE is DECODESET (R76); every other one is itself. -/
def Instr.canonical : Instr → Instr
  | .validate v => .validate v
  | .level v => .level v
  | .encode vs => .encode vs
  | .decode q w0 w1 w2 w3 => .decode q w0 w1 w2 w3
  | .decodeset t q => .decodeset t q
  | .score t q => .decodeset t q
  | .bootinfo => .bootinfo

end Sys2Proof
end

