-- ==== Sys2Proof/Machine/Operands.lean ====
section
/-! DEFINITION. The fields of a request's beats and the operands assembled from them (spec/30_encoding.md R61 to R63, R66,
R67), both ways: reading a field and laying a field out. No operand is scaled, shifted or biased (R63). -/

namespace Sys2Proof.Machine

/-- The opcode field OPC, header bits [3:0] (R61). -/
def headerOpc (h : Beat) : BitVec 4 := h.extractLsb' 0 4

/-- VALUE = sint_32(h[63:32]) (R63). -/
def headerValue (h : Beat) : Int := (h.extractLsb' 32 32).toInt

/-- SQUARE = sint_16(h[47:32]) (R63). -/
def headerSquare (h : Beat) : Int := (h.extractLsb' 32 16).toInt

/-- TABLE = sint_16(h[63:48]) (R63). -/
def headerTable (h : Beat) : Int := (h.extractLsb' 48 16).toInt

/-- Bits [31:4] are zero, as formats V, S and TS require (R62). -/
def lowBitsZero (h : Beat) : Bool := h.extractLsb' 4 28 == 0#28

/-- Bits [63:48] are zero, as format S requires (R62). -/
def topBitsZero (h : Beat) : Bool := h.extractLsb' 48 16 == 0#16

/-- Bits [63:4] are zero, as format N requires (R62). -/
def upperBitsZero (h : Beat) : Bool := h.extractLsb' 4 60 == 0#60

/-- The two values of one payload beat of ENCODE: the even square's in bits [31:0], the odd square's in bits [63:32]
(R66). -/
def beatValues (b : Beat) : List Int := [(b.extractLsb' 0 32).toInt, (b.extractLsb' 32 32).toInt]

/-- The values of ENCODE's payload beats, in square order (R66). -/
def payloadValues : List Beat → List Int
  | [] => []
  | b :: rest => beatValues b ++ payloadValues rest

/-- bits_32(i): the 32-bit two's-complement encoding of an integer that fits (spec/00_scope.md R13). -/
def bits32 (i : Int) : BitVec 32 := BitVec.ofInt 32 i

/-- bits_16(i) (R13). -/
def bits16 (i : Int) : BitVec 16 := BitVec.ofInt 16 i

/-- A header of format N (R62). -/
def headerN (opc : BitVec 4) : Beat := 0#60 ++ opc

/-- A header of format V (R62). -/
def headerV (opc : BitVec 4) (value : Int) : Beat := bits32 value ++ 0#28 ++ opc

/-- A header of format S (R62). -/
def headerS (opc : BitVec 4) (square : Int) : Beat := 0#16 ++ bits16 square ++ 0#28 ++ opc

/-- A header of format TS (R62). -/
def headerTS (opc : BitVec 4) (table square : Int) : Beat := bits16 table ++ bits16 square ++ 0#28 ++ opc

/-- The payload beats that carry ENCODE's values, two a beat (R66). A list of odd length has no encoding
(WellFormed.lean); its last value is left out. -/
def valueBeats : List Int → List Beat
  | a :: b :: rest => (bits32 b ++ bits32 a) :: valueBeats rest
  | _ => []

end Sys2Proof.Machine
end

