-- ==== Sys2Proof/WellFormed.lean ====
section
/-! DEFINITION. When a command has an encoding: each operand fits its field, and ENCODE has exactly 64 values
(spec/30_encoding.md R66, R75, R77). An operand that fits but lies outside the value domain or the index range is well
formed: the block itself reports it (R77). -/

namespace Sys2Proof

/-- `i` fits an N-bit two's-complement field: -2^(N-1) <= i <= 2^(N-1) - 1 (R77). -/
def fitsField (n : Nat) (i : Int) : Bool := decide (-(2 ^ (n - 1) : Int) ≤ i ∧ i < (2 ^ (n - 1) : Int))

/-- The checks an assembler makes on a command (R66, R75, R77). Log entry 8. -/
def Instr.wellFormed : Instr → Bool
  | .validate v => fitsField 32 v
  | .level v => fitsField 32 v
  | .encode vs => decide (vs.length = 64) && vs.all (fitsField 32)
  | .decode q _ _ _ _ => fitsField 16 q
  | .decodeset t q => fitsField 16 t && fitsField 16 q
  | .score t q => fitsField 16 t && fitsField 16 q
  | .bootinfo => true

end Sys2Proof
end

