-- ==== Sys2Proof/Decode.lean ====
section
/-! DEFINITION. The decoder, total on every list of beats, and after it the encoder, both from the tables of
spec/30_encoding.md (R60 to R71). A header that matches no row is rejected by name; its payload beats are counted off all
the same (R65, R69). -/

namespace Sys2Proof

open Sys2Proof.Machine

/-- One row of the opcode map's match and mask (R64). -/
structure OpcodeRow where
  mnemonic : String
  matchBits : Beat
  maskBits : Beat
deriving DecidableEq, Repr

/-- The match and mask of each legal header, as R64 tabulates them. The decoder below follows R71; that the two agree is
a statement. -/
def opcodeRows : List OpcodeRow :=
  [ ⟨"VALIDATE", 0x0000000000000001#64, 0x00000000FFFFFFFF#64⟩,
    ⟨"LEVEL", 0x0000000000000002#64, 0x00000000FFFFFFFF#64⟩,
    ⟨"ENCODE", 0x0000000000000003#64, 0xFFFFFFFFFFFFFFFF#64⟩,
    ⟨"DECODE", 0x0000000000000004#64, 0xFFFF0000FFFFFFFF#64⟩,
    ⟨"DECODESET", 0x0000000000000005#64, 0x00000000FFFFFFFF#64⟩,
    ⟨"BOOTINFO", 0x0000000000000006#64, 0xFFFFFFFFFFFFFFFF#64⟩ ]

/-- A header is legal when it agrees with a row's match under the row's mask (R64, R68). -/
def legalHeader (h : Beat) : Bool := opcodeRows.any fun r => h &&& r.maskBits == r.matchBits

/-- P(OPC): the number of payload beats after a header, from its low four bits alone, legal or not (R65). -/
def payloadLen (h : Beat) : Nat :=
  if headerOpc h = 3#4 then 32 else if headerOpc h = 4#4 then 4 else 0

/-- Why a header is illegal (R69). -/
inductive IllegalHeader where
  /-- OPC is 0x0 or one of 0x7 to 0xF. -/
  | reservedOpcode
  /-- OPC is legal and a bit that its format requires to be zero is not. -/
  | reservedBits
deriving DecidableEq, Repr

/-- A legal header with its operands, before its payload beats are read (R71). -/
inductive Header where
  | validate (value : Int)
  | level (value : Int)
  | encode
  | decode (square : Int)
  | decodeset (table square : Int)
  | bootinfo
deriving DecidableEq, Repr

/-- DecodeHeader (R71): total on every 64-bit header. -/
def decodeHeader (h : Beat) : Except IllegalHeader Header :=
  if headerOpc h = 1#4 then
    if lowBitsZero h then .ok (.validate (headerValue h)) else .error .reservedBits
  else if headerOpc h = 2#4 then
    if lowBitsZero h then .ok (.level (headerValue h)) else .error .reservedBits
  else if headerOpc h = 3#4 then
    if upperBitsZero h then .ok .encode else .error .reservedBits
  else if headerOpc h = 4#4 then
    if lowBitsZero h && topBitsZero h then .ok (.decode (headerSquare h)) else .error .reservedBits
  else if headerOpc h = 5#4 then
    if lowBitsZero h then .ok (.decodeset (headerTable h) (headerSquare h)) else .error .reservedBits
  else if headerOpc h = 6#4 then
    if upperBitsZero h then .ok .bootinfo else .error .reservedBits
  else .error .reservedOpcode

/-- What the decoder makes of a list of beats that starts at a header. -/
inductive Decoded where
  /-- A complete legal request, and the beats after it. -/
  | instr (i : Instr) (rest : List Beat)
  /-- A complete illegal request (its payload beats counted off, R65, R163), and the beats after it. -/
  | illegal (why : IllegalHeader) (rest : List Beat)
  /-- The request is not complete: its header or some of its payload beats have not arrived (R28). -/
  | incomplete
deriving DecidableEq, Repr

/-- The request at the front of a list of beats (R60, R65 to R71): one header, then exactly P(OPC) payload beats. -/
def decode : List Beat → Decoded
  | [] => .incomplete
  | h :: tail =>
    match decodeHeader h with
    | .error why =>
      if tail.length < payloadLen h then .incomplete else .illegal why (tail.drop (payloadLen h))
    | .ok (.validate v) => .instr (.validate v) tail
    | .ok (.level v) => .instr (.level v) tail
    | .ok .encode =>
      if tail.length < 32 then .incomplete else .instr (.encode (payloadValues (tail.take 32))) (tail.drop 32)
    | .ok (.decode q) =>
      match tail with
      | w0 :: w1 :: w2 :: w3 :: rest => .instr (.decode q w0 w1 w2 w3) rest
      | _ => .incomplete
    | .ok (.decodeset t q) => .instr (.decodeset t q) tail
    | .ok .bootinfo => .instr .bootinfo tail

/-- The beats of a well-formed command: its header, then its payload (R62, R64, R66, R67, R76). -/
def encode : Instr → List Beat
  | .validate v => [headerV 1#4 v]
  | .level v => [headerV 2#4 v]
  | .encode vs => headerN 3#4 :: valueBeats vs
  | .decode q w0 w1 w2 w3 => [headerS 4#4 q, w0, w1, w2, w3]
  | .decodeset t q => [headerTS 5#4 t q]
  | .score t q => [headerTS 5#4 t q]
  | .bootinfo => [headerN 6#4]

/-- The longest request: ENCODE's header and its 32 payload beats (R65). -/
def maxRequestBeats : Nat := 33

/-- The first `n` beats of a number, its least significant 64 bits first. -/
def numberBeats : (n : Nat) → Nat → List Beat
  | 0, _ => []
  | n + 1, w => BitVec.ofNat 64 w :: numberBeats n (w / 2 ^ 64)

/-- The beats of an instruction given as one number: beat k is bits 64k+63 to 64k, and every bit from `nbits` on is 0. -/
def tableBeats (nbits w : Nat) : List Beat := numberBeats maxRequestBeats (w % 2 ^ nbits)

/-- The instruction the decoder reads from an instruction given as one number (the opcode table's numbering). -/
def decodeTableWord (nbits w : Nat) : Option Instr :=
  match decode (tableBeats nbits w) with
  | .instr i _ => some i
  | .illegal _ _ => none
  | .incomplete => none

end Sys2Proof
end

