-- ==== Sys2Proof/Machine/Flags.lean ====
section
/-! DEFINITION. The error bits of a response and the checks that set them: the domain check, the bounds of a square and of
a table id, and which kinds a request reports together (spec/40_validate.md R100, spec/60_exceptions.md R170, R176). -/

namespace Sys2Proof.Machine

/-- A set of error kinds: one bit each, as in the response header (R72, R170). Every kind is absent unless set. -/
structure ErrorSet where
  /-- InvalidValue: a Value is not a multiple of 5. -/
  inv : Bool := false
  /-- OutOfRange: a Value is outside [-35, 40]. -/
  oor : Bool := false
  /-- IndexOutOfBounds: a square or a table id is outside its range. -/
  iob : Bool := false
  /-- The TableSet is not available. -/
  nav : Bool := false
  /-- The request is illegal. -/
  ill : Bool := false
deriving DecidableEq, Repr

/-- Some kind is present: `E != {}` of the spec's pseudocode. -/
def ErrorSet.any (e : ErrorSet) : Bool := e.inv || e.oor || e.iob || e.nav || e.ill

/-- Validate (R100): both constraints are checked every time, neither check short-circuits the other. -/
def validate (v : Int) : ErrorSet :=
  { inv := decide (¬ Config.valueStep ∣ v)
    oor := decide (v < Config.vmin ∨ Config.vmax < v) }

/-- The square an index names, when it is in [0, 64) (R143, R145). -/
def squareOf (i : Int) : Option (Fin 64) :=
  if h : 0 ≤ i ∧ i < 64 then some ⟨i.toNat, by omega⟩ else none

/-- The table an index names, when it is in [0, n) (R145). -/
def tableOf (n : Nat) (i : Int) : Option (Fin n) :=
  if h : 0 ≤ i ∧ i < n then some ⟨i.toNat, by omega⟩ else none

/-- The kinds a lookup reports: READY, the table bound and the square bound are all evaluated, and every one that fails is
reported (R145, R176 item 5). A bad table id and a bad square give one IOB. -/
def lookupErrors (n : Nat) (ready : Bool) (table square : Int) : ErrorSet :=
  { nav := !ready
    iob := (tableOf n table).isNone || (squareOf square).isNone }

end Sys2Proof.Machine
end

