-- ==== Sys2Proof/Machine/Nibble.lean ====
section
/-! DEFINITION. The codec's arithmetic: the level of a Value and back, the place of a square's slot in a packed word,
packing 64 values into four words and unpacking one square (spec/20_memory.md R41, spec/40_validate.md R101,
spec/41_encode.md R120, spec/42_decode.md R140, R141). -/

namespace Sys2Proof.Machine

/-- Level (R101). The division is exact for a valid Value, the only kind it is used on. -/
def level (v : Int) : Int := v / Config.valueStep + Config.bias

/-- lvl4: the level as the 4 bits of a slot (R101). -/
def lvl4 (v : Int) : BitVec 4 := BitVec.ofInt 4 (level v)

/-- Unlevel (R140). -/
def unlevel (f : BitVec 4) : Int := ((f.toNat : Int) - Config.bias) * Config.valueStep

/-- The bit offset of a square's slot in its packed word: 4 * (s & 15) (R41; 60 for square 63, spec/90_conflicts.md C1). -/
def bitOffset (s : Nat) : Nat := Config.slotBits * (s % Config.slotsPerWord)

/-- Extract: the slot of square `s` in its word, (word >> bitOffset) & 15 (R41, R140). -/
def extract (word : Beat) (s : Nat) : BitVec 4 := word.extractLsb' (bitOffset s) 4

/-- Field insertion: word | (level << bitOffset) (R41). -/
def insertSlot (word : Beat) (s : Nat) (f : BitVec 4) : Beat := word ||| (f.setWidth 64 <<< bitOffset s)

/-- The four packed words of one table, word `i` holding squares 16i to 16i+15 (R7, R43). -/
structure Words where
  w0 : Beat
  w1 : Beat
  w2 : Beat
  w3 : Beat
deriving DecidableEq, Repr

/-- Four words of zero, from which packing starts (R120). -/
def Words.zero : Words := ⟨0, 0, 0, 0⟩

/-- Word `i` of a table. -/
def Words.get (w : Words) : Fin 4 → Beat
  | 0 => w.w0
  | 1 => w.w1
  | 2 => w.w2
  | 3 => w.w3

/-- The four words in payload order (R43, R74). -/
def Words.toList (w : Words) : List Beat := [w.w0, w.w1, w.w2, w.w3]

/-- W[s >> 4] = W[s >> 4] | (f << bitOffset(s)) (R120). A table has no word for a square of 64 or more, which a list of 64
values does not reach. -/
def Words.orSlot (w : Words) (s : Nat) (f : BitVec 4) : Words :=
  match s / 16 with
  | 0 => { w with w0 := insertSlot w.w0 s f }
  | 1 => { w with w1 := insertSlot w.w1 s f }
  | 2 => { w with w2 := insertSlot w.w2 s f }
  | 3 => { w with w3 := insertSlot w.w3 s f }
  | _ => w

/-- What packing answers (R120): four words, or the first offending square with its value and the constraints it
violates. -/
inductive Packed where
  | words (w : Words)
  | failure (errors : ErrorSet) (square : Nat) (value : Int)
deriving DecidableEq, Repr

/-- Pack from square `s` on: ascending square order, stopping at the first invalid value (R120, R124). -/
def packFrom : List Int → Nat → Words → Packed
  | [], _, w => .words w
  | v :: rest, s, w =>
    if (validate v).any then .failure (validate v) s v else packFrom rest (s + 1) (w.orSlot s (lvl4 v))

/-- Pack (R120). -/
def pack (values : List Int) : Packed := packFrom values 0 Words.zero

/-- The word of a table that holds square `s`: s >> 4 (R41). -/
def wordIndex (s : Fin 64) : Fin 4 := ⟨s / 16, by omega⟩

/-- Unpack one square of one table's four words (R141). -/
def unpack (w : Words) (s : Fin 64) : Int := unlevel (extract (w.get (wordIndex s)) s)

end Sys2Proof.Machine
end

