-- ==== Sys2Proof/Machine/Memory.lean ====
section
/-! DEFINITION. The block's one memory, STORE: packed words of 64 bits numbered by word index (spec/20_memory.md R40). It
is a list of (word index, word) pairs in one canonical form. STORE has no byte addresses (R40, R44), so its unit here is
the word and no byte order is invented (log entry 2). -/

namespace Sys2Proof.Machine

/-- STORE as a list of (word index, word) pairs. -/
abbrev Memory := List (Nat × Beat)

/-- What an unlisted word reads as: zero, the word STORE holds after a failed construction (R193). Log entry 2. -/
def Memory.blank : Beat := 0#64

/-- MemRead(w, 64): the word at index `w` (R15, R40). -/
def Memory.read : Memory → Nat → Beat
  | [], _ => Memory.blank
  | (a, x) :: rest, w => if a = w then x else Memory.read rest w

/-- MemWrite(w, 64, v) (R15, R40). Writing the word an unlisted index reads as takes the index out of the list. -/
def Memory.write : Memory → Nat → Beat → Memory
  | [], w, v => if v = Memory.blank then [] else [(w, v)]
  | (a, x) :: rest, w, v =>
    if w < a then (if v = Memory.blank then (a, x) :: rest else (w, v) :: (a, x) :: rest)
    else if w = a then (if v = Memory.blank then rest else (w, v) :: rest)
    else (a, x) :: Memory.write rest w v

/-- Every listed index is at least `lo`, the indices rise strictly, and no listed word is the blank word. -/
def Memory.wfFrom (lo : Nat) : Memory → Bool
  | [] => true
  | (a, x) :: rest => decide (lo ≤ a) && !(x == Memory.blank) && Memory.wfFrom (a + 1) rest

/-- The canonical form, in which equal memories are equal lists. -/
def Memory.wf (m : Memory) : Bool := Memory.wfFrom 0 m

/-- Every listed index is a word of a STORE of `n` tables: below 4n (R40, R48). -/
def Memory.within (n : Nat) (m : Memory) : Bool := m.all fun c => decide (c.1 < 4 * n)

/-- The index in STORE of the word that holds square `s` of table `k`: 4k + (s >> 4) (R42, R145). -/
def storeIndex {n : Nat} (k : Fin n) (s : Fin 64) : Nat := 4 * k.val + s.val / 16

/-- Table `k`'s four words, at 4k to 4k+3 (R42, R192). -/
def Memory.writeTable (m : Memory) (k : Nat) (w : Words) : Memory :=
  (((m.write (4 * k) w.w0).write (4 * k + 1) w.w1).write (4 * k + 2) w.w2).write (4 * k + 3) w.w3

/-- Words 0 to n-1 set to zero. -/
def Memory.zeroBelow (m : Memory) : Nat → Memory
  | 0 => m
  | n + 1 => (Memory.zeroBelow m n).write n 0

end Sys2Proof.Machine
end

