-- ==== Sys2Proof/Machine/Construct.lean ====
section
/-! DEFINITION. What reset builds: the packed table store and the construction-status registers, which are all of the
block's architectural state (spec/10_state.md R24), and construction itself (spec/70_reset_and_hazards.md R192). -/

namespace Sys2Proof.Machine

/-- The record of R24. The status registers have no register numbers and no write path (R26): reset builds them and no
command changes them (R30). -/
structure Built where
  /-- READY: the TableSet is available to lookups. -/
  ready : Bool
  /-- FAILED: construction found an invalid TABLE_DATA entry. -/
  failed : Bool
  /-- BOOT_INV: the failing entry was not a multiple of 5. -/
  bootInv : Bool
  /-- BOOT_OOR: the failing entry was outside [-35, 40]. -/
  bootOor : Bool
  /-- BOOT_TABLE: the table id of the failing entry. -/
  bootTable : BitVec 8
  /-- BOOT_SQUARE: the square of the failing entry. -/
  bootSquare : BitVec 6
  /-- BOOT_VALUE: the failing entry's value, two's complement. -/
  bootValue : BitVec 32
  /-- STORE: the packed TableSet. -/
  store : Memory
deriving DecidableEq, Repr

/-- What a successful construction leaves around STORE (R192, R193). -/
def Built.success (m : Memory) : Built :=
  { ready := true, failed := false, bootInv := false, bootOor := false, bootTable := 0, bootSquare := 0, bootValue := 0,
    store := m }

/-- What a failure at square `s` of table `k` with value `v` leaves (R192): every word of STORE zeroed, READY clear, FAILED
set, and the entry recorded. -/
def Built.failure (n : Nat) (m : Memory) (e : ErrorSet) (k s : Nat) (v : Int) : Built :=
  { ready := false, failed := true, bootInv := e.inv, bootOor := e.oor, bootTable := BitVec.ofNat 8 k,
    bootSquare := BitVec.ofNat 6 s, bootValue := BitVec.ofInt 32 v, store := m.zeroBelow (4 * n) }

/-- The 64 values of table `k`, in square order: sint_32(TABLE_DATA(k, s)) (R10, R192). -/
def tableValues (data : Nat → Nat → BitVec 32) (k : Nat) : List Int :=
  (List.range Config.squares).map fun s => (data k s).toInt

/-- Construction from table `k` on, with `left` tables to go, over a STORE of `n` tables (R192). -/
def constructFrom (n : Nat) (data : Nat → Nat → BitVec 32) : (left k : Nat) → Memory → Built
  | 0, _, m => Built.success m
  | left + 1, k, m =>
    match pack (tableValues data k) with
    | .failure e s v => Built.failure n m e k s v
    | .words w => constructFrom n data left (k + 1) (m.writeTable k w)

/-- Construct(N, TABLE_DATA) (R192). It starts from a STORE with nothing listed: reset discards all state (R190), and
construction writes every word either way (log entry 10). -/
def construct (n : Nat) (data : Nat → Nat → BitVec 32) : Built := constructFrom n data n 0 []

end Sys2Proof.Machine
end

