-- ==== Sys2Proof/Machine/State.lean ====
section
/-! DEFINITION. The state of the block as plain data, the state after reset, and the reasons a step can stop
(spec/10_state.md R20 to R30). The block has no general registers, no program counter, no persistent flags, no modes and
no interrupts (R20 to R23), so State holds the record of R24, the two channels of R28 and whether the request channel is
open or stalled (spec/70_reset_and_hazards.md R191, R203); beside them it carries the configuration parameter NUM_TABLES
(R27). -/

namespace Sys2Proof.Machine

/-- The state of the block. -/
structure State where
  /-- NUM_TABLES, the configuration parameter (spec/00_scope.md R9, R27): 1 to 256, fixed for the life of the block. Nothing
  writes it. Log entry 15. -/
  numTables : Nat
  /-- The beats of the request packet received so far: none, or a header and fewer payload beats than its opcode takes
  (R28). -/
  reqBuf : List Beat
  /-- The beats that have arrived on the request channel after those, oldest first, not yet taken into a packet
  (spec/20_memory.md R50, R195). -/
  reqIn : List Beat
  /-- The beats of the responses the host has not yet taken, oldest first (R28). -/
  respOut : List Beat
  /-- The request channel accepts beats and executes requests (R191 step 3, R194, R197). -/
  chanOpen : Bool
  /-- The request channel is stalled because responses are not being taken (R203). Log entry 4. -/
  stalled : Bool
  /-- What reset built (R24). -/
  built : Built
deriving DecidableEq, Repr

/-- No step of this block faults: an error is reported in the response to the request that caused it, it does not halt
or lock the block, and no trap is taken (spec/60_exceptions.md R172, R173, R177). So there is no fault to name (log entry 13). -/
inductive Fault
deriving DecidableEq, Repr

/-- The reasons a step has no meaning. -/
inductive Refusal where
  /-- Raised by the dispatch for a row of the opcode table that has no meaning yet. Safe: the model stops. No arm raises
  it now. -/
  | notModelled (mnemonic : String)
deriving DecidableEq, Repr

/-- What a step answers. -/
abbrev Result := Host.Outcome State Fault Refusal

/-- The state right after a reset of a block with `n` tables whose contents are `data` (R190 to R193): both channels
empty, the request channel open, and everything else built by construction. -/
def State.afterReset (n : Nat) (data : Nat → Nat → BitVec 32) : State :=
  { numTables := n, reqBuf := [], reqIn := [], respOut := [], chanOpen := true, stalled := false,
    built := construct n data }

/-- The state of this block right after reset: seven tables (R9) with the contents TABLE_DATA (R10). -/
def State.reset : State := State.afterReset Config.numTables Config.tableData

end Sys2Proof.Machine
end

