-- ==== Sys2Proof/Machine/Response.lean ====
section
/-! DEFINITION. A response: its fields, its header word and its beats (spec/30_encoding.md R70, R72 to R74). -/

namespace Sys2Proof.Machine

/-- The fields of a response. Every field that a command's rule does not set is 0 (R73). READY and FAILED are not here:
they are copied from the state into every response. -/
structure Response where
  /-- Header bits [4:0]. -/
  errors : ErrorSet := {}
  /-- SQ, header bits [13:8]. -/
  sq : BitVec 6 := 0
  /-- TBL, header bits [23:16]. -/
  tbl : BitVec 8 := 0
  /-- BINV, header bit 26. -/
  binv : Bool := false
  /-- BOOR, header bit 27. -/
  boor : Bool := false
  /-- RESULT, header bits [63:32]. -/
  result : BitVec 32 := 0
  /-- The payload beats (R74). -/
  payload : List Beat := []
deriving DecidableEq, Repr

/-- One bit of a header. -/
def bit (b : Bool) : BitVec 1 := BitVec.ofBool b

/-- The response header, from bit 63 down to bit 0 (R72), with READY and FAILED copied from the state (R73). -/
def Response.header (r : Response) (b : Built) : Beat :=
  r.result ++ 0#4 ++ bit r.boor ++ bit r.binv ++ bit b.failed ++ bit b.ready ++ r.tbl ++ 0#2 ++ r.sq ++ 0#3 ++
    bit r.errors.ill ++ bit r.errors.nav ++ bit r.errors.iob ++ bit r.errors.oor ++ bit r.errors.inv

/-- The beats of a response: its header, then its payload (R60). -/
def Response.beats (r : Response) (b : Built) : List Beat := r.header b :: r.payload

end Sys2Proof.Machine
end

