-- ==== Sys2Proof/Machine/Ops.lean ====
section
/-! DEFINITION. The operations the meanings share: reading the registers and STORE, ending a command with its response,
and raising an error, which is all the block has in the place of an exception (spec/00_scope.md R15,
spec/60_exceptions.md R172). There is no return from an exception: no trap is taken, so none is returned from (R177,
R178). -/

namespace Sys2Proof.Machine

/-- The response goes to the end of the response channel (spec/20_memory.md R50). Nothing else changes (R30). -/
def State.respond (s : State) (r : Response) : State := { s with respOut := s.respOut ++ r.beats s.built }

/-- A command ends: its response goes out and the block is ready for the next request (R2, R172). -/
def complete (r : Response) (s : State) : Result := .next (s.respond r)

/-- respond([]) with RESULT = `result`: a success without payload (R15). -/
def success (result : BitVec 32) : Response := { result := result }

/-- respond(payload): a success with payload beats (R15). -/
def successPayload (payload : List Beat) : Response := { payload := payload }

/-- raise E(RESULT = 0) (R15, R172, R173): the error bits of E, no result and no payload. It saves nothing, changes no mode
and goes nowhere (R177). -/
def raise (e : ErrorSet) : Response := { errors := e }

/-- raise E with the offending square and its value, as ENCODE does (R122, R170). -/
def raiseAt (e : ErrorSet) (square : Nat) (value : Int) : Response :=
  { errors := e, sq := BitVec.ofNat 6 square, result := BitVec.ofInt 32 value }

/-- MemRead of the word that holds square `q` of table `k` (R40, R145). Both are in range by their types, so no index
outside STORE can be formed (spec/20_memory.md R48). A read has no side effect (R47). -/
def memRead (b : Built) {n : Nat} (k : Fin n) (q : Fin 64) : Beat := b.store.read (storeIndex k q)

end Sys2Proof.Machine
end

