-- ==== Sys2Proof/Machine/Diagnostics.lean ====
section
/-! DEFINITION. BOOTINFO and the answer to an illegal request (spec/43_control.md). Neither writes state. -/

namespace Sys2Proof.Machine

/-- BOOTINFO's response (R161): the BOOT_ registers, with no error bit. -/
def bootinfoResponse (b : Built) : Response :=
  { binv := b.bootInv, boor := b.bootOor, tbl := b.bootTable, sq := b.bootSquare, result := b.bootValue }

/-- BOOTINFO (R161). -/
def execBootinfo (s : State) : Result := complete (bootinfoResponse s.built) s

/-- ILLEGAL (R163): ILL and nothing else. No other check runs (R176 item 1). -/
def execIllegal (s : State) : Result := complete (raise { ill := true }) s

end Sys2Proof.Machine
end

