-- ==== Sys2Proof/Machine/Domain.lean ====
section
/-! DEFINITION. VALIDATE and LEVEL (spec/40_validate.md). Neither reads STORE and neither writes state. -/

namespace Sys2Proof.Machine

/-- VALIDATE's response (R102): the violated constraints, and RESULT = 0 either way. -/
def validateResponse (v : Int) : Response := if (validate v).any then raise (validate v) else success 0

/-- VALIDATE (R102). -/
def execValidate (v : Int) (s : State) : Result := complete (validateResponse v) s

/-- LEVEL's response (R104): the level zero-extended to 32 bits, or the violated constraints and no level. -/
def levelResponse (v : Int) : Response :=
  if (validate v).any then raise (validate v) else success ((lvl4 v).setWidth 32)

/-- LEVEL (R104). -/
def execLevel (v : Int) (s : State) : Result := complete (levelResponse v) s

end Sys2Proof.Machine
end

