-- ==== Sys2Proof/Machine/Lookup.lean ====
section
/-! DEFINITION. DECODE, DECODESET and SCORE (spec/42_decode.md). -/

namespace Sys2Proof.Machine

/-- DECODE's response (R143): the square's Value sign-extended to 32 bits, or IOB for a square outside [0, 64). It reads no
STORE and works whatever READY is. -/
def decodeResponse (square : Int) (w : Words) : Response :=
  match squareOf square with
  | none => raise { iob := true }
  | some q => success (BitVec.ofInt 32 (unpack w q))

/-- DECODE (R143). -/
def execDecode (square : Int) (w0 w1 w2 w3 : Beat) (s : State) : Result :=
  complete (decodeResponse square ⟨w0, w1, w2, w3⟩) s

/-- The response to a lookup in a TableSet of `n` tables (R145): every condition that fails is reported, and STORE is read
only when none does. -/
def lookupResponse (n : Nat) (b : Built) (table square : Int) : Response :=
  match tableOf n table, squareOf square with
  | some k, some q =>
    if b.ready then success (BitVec.ofInt 32 (unlevel (extract (memRead b k q) q)))
    else raise (lookupErrors n b.ready table square)
  | _, _ => raise (lookupErrors n b.ready table square)

/-- DECODESET (R145). -/
def execDecodeset (table square : Int) (s : State) : Result :=
  complete (lookupResponse s.numTables s.built table square) s

/-- SCORE, the evaluator's query (R147): the same response and the same errors as DECODESET. -/
def execScore (table square : Int) (s : State) : Result :=
  complete (lookupResponse s.numTables s.built table square) s

end Sys2Proof.Machine
end

