-- ==== Sys2Proof/Machine/Packing.lean ====
section
/-! DEFINITION. ENCODE (spec/41_encode.md). It reads no STORE, writes no state, and works whatever READY is. -/

namespace Sys2Proof.Machine

/-- ENCODE's response (R122): the four packed words as payload, or the first offending square and its value with every
constraint it violates, and no payload (R123, R124). -/
def encodeResponse (values : List Int) : Response :=
  match pack values with
  | .failure e q v => raiseAt e q v
  | .words w => successPayload w.toList

/-- ENCODE (R122). -/
def execEncode (values : List Int) (s : State) : Result := complete (encodeResponse values) s

end Sys2Proof.Machine
end

