-- ==== Sys2Proof/Machine/Dispatch.lean ====
section
/-! DEFINITION. One arm for each command: its meaning. -/

namespace Sys2Proof.Machine

def exec (i : Instr) (s : State) : Host.Outcome State Fault Refusal :=
  match i with
  | .validate v => Sys2Proof.Machine.execValidate v s
  | .level v => Sys2Proof.Machine.execLevel v s
  | .encode vs => Sys2Proof.Machine.execEncode vs s
  | .decode q w0 w1 w2 w3 => Sys2Proof.Machine.execDecode q w0 w1 w2 w3 s
  | .decodeset t q => Sys2Proof.Machine.execDecodeset t q s
  | .score t q => Sys2Proof.Machine.execScore t q s
  | .bootinfo => Sys2Proof.Machine.execBootinfo s

end Sys2Proof.Machine
end

