-- ==== Sys2Proof/Machine/Framing.lean ====
section
/-! DEFINITION. How requests come off the request channel (spec/10_state.md R28, spec/70_reset_and_hazards.md R198): the
beats received so far and those that have arrived after them are one stream, split into packets by counting. -/

namespace Sys2Proof.Machine

/-- The block takes no request: the channel is closed (R194), or stalled until responses are taken (R203). -/
def State.holding (s : State) : Bool := !s.chanOpen || s.stalled

/-- The unexecuted beats of the request channel, oldest first. -/
def State.pending (s : State) : List Beat := s.reqBuf ++ s.reqIn

/-- The request at the front of the request channel. -/
def fetch (s : State) : Decoded := decode s.pending

/-- The beats of the request at the front are taken off the channel, leaving `rest`. -/
def State.advance (s : State) (rest : List Beat) : State := { s with reqBuf := [], reqIn := rest }

/-- The request at the front is not complete: what has arrived of it is kept, and the block waits for the rest (R28). -/
def State.await (s : State) : State := { s with reqBuf := s.pending, reqIn := [] }

end Sys2Proof.Machine
end

