-- ==== Sys2Proof/Machine/Step.lean ====
section
/-! DEFINITION. One step of the block: one complete request is one step, which produces one response
(spec/00_scope.md R2, spec/70_reset_and_hazards.md R202). -/

namespace Sys2Proof.Machine

/-- One step. Where the channel is closed or stalled nothing happens (R194, R203). Otherwise the beats that have arrived
are split by counting (R198): a complete legal request is executed, a complete illegal one is answered with ILL (R163),
and an incomplete one is waited for (R28; log entry 3). -/
def step (s : State) : Host.Outcome State Fault Refusal :=
  if s.holding then .next s else
  match fetch s with
  | .instr i rest => exec i (s.advance rest)
  | .illegal _ rest => execIllegal (s.advance rest)
  | .incomplete => .next s.await

/-- `s` with one instruction, given as a number, at the front of the request channel: the channel is open and not
stalled, no packet is partly received, and the instruction's packet (its header and exactly the payload beats its opcode
takes) comes before every beat that had arrived. Log entry 11. -/
def State.withFetchWord (s : State) (nbits w : Nat) : State :=
  { s with
    reqBuf := []
    reqIn := (tableBeats nbits w).take (1 + payloadLen (BitVec.ofNat 64 (w % 2 ^ nbits))) ++ s.reqIn
    chanOpen := true
    stalled := false }

end Sys2Proof.Machine
end

