-- ==== Sys2Proof/Machine/Assembler.lean ====
section
/-! DEFINITION. The assembler and the disassembler of spec/30_encoding.md R75 to R78: lines of text to beats and beats to
lines. They are host software and have no effect on the block (spec/92_eei_decisions.md D27). A text is a list of
characters. What R75 leaves open about spacing, letter case and an unfinished packet is in log entry 7. -/

namespace Sys2Proof.Machine

/-- One line: a request, or one raw beat (R75). -/
inductive AsmLine where
  | request (i : Instr)
  | beat (b : Beat)
deriving DecidableEq, Repr

/-- The beats a line assembles to, or none where an operand does not fit its field (R75 to R77). -/
def AsmLine.assemble : AsmLine → Option (List Beat)
  | .request i => if i.wellFormed then some (encode i) else none
  | .beat b => some [b]

/-- The beats of a program, line after line; refused as a whole when a line is. -/
def assembleLines : List AsmLine → Option (List Beat)
  | [] => some []
  | l :: rest =>
    match l.assemble, assembleLines rest with
    | some bs, some cs => some (bs ++ cs)
    | _, _ => none

/-- The lines a stream of beats disassembles to, packet by packet, over at most `fuel` packets. An illegal header and the
P(OPC) beats after it are raw beats (R78); so are the beats of a packet that is not complete (log entry 7). -/
def disassembleFuel : (fuel : Nat) → List Beat → List AsmLine
  | 0, _ => []
  | fuel + 1, bs =>
    match decode bs with
    | .instr i rest => .request i :: disassembleFuel fuel rest
    | .illegal _ rest => (bs.take (bs.length - rest.length)).map .beat ++ disassembleFuel fuel rest
    | .incomplete => bs.map .beat

/-- The lines a stream of beats disassembles to (R76, R78). -/
def disassemble (bs : List Beat) : List AsmLine := disassembleFuel (bs.length + 1) bs

/-- The value of a decimal digit. -/
def decDigit (c : Char) : Option Nat :=
  if 48 ≤ c.toNat ∧ c.toNat ≤ 57 then some (c.toNat - 48) else none

/-- The value of a hexadecimal digit, in either case. -/
def hexDigit (c : Char) : Option Nat :=
  if 48 ≤ c.toNat ∧ c.toNat ≤ 57 then some (c.toNat - 48)
  else if 65 ≤ c.toNat ∧ c.toNat ≤ 70 then some (c.toNat - 55)
  else if 97 ≤ c.toNat ∧ c.toNat ≤ 102 then some (c.toNat - 87)
  else none

/-- A number in base `base`, most significant digit first, after the digits whose value is `acc`. -/
def readDigits (base : Nat) (digit : Char → Option Nat) : Nat → List Char → Option Nat
  | acc, [] => some acc
  | acc, c :: rest =>
    match digit c with
    | some d => readDigits base digit (acc * base + d) rest
    | none => none

/-- A number of at least one digit. -/
def readNumber (base : Nat) (digit : Char → Option Nat) : List Char → Option Nat
  | [] => none
  | c :: rest => readDigits base digit 0 (c :: rest)

/-- An integer operand of an n-bit field (R75): decimal, optionally with a leading -, or 0x and hexadecimal digits read as
the field's two's-complement bits. A hexadecimal number wider than the field is refused (R77). -/
def readInteger (n : Nat) : List Char → Option Int
  | '-' :: rest => (readNumber 10 decDigit rest).map fun m => -(m : Int)
  | '0' :: 'x' :: rest =>
    match readNumber 16 hexDigit rest with
    | some m => if m < 2 ^ n then some (BitVec.ofNat n m).toInt else none
    | none => none
  | cs => (readNumber 10 decDigit cs).map fun m => (m : Int)

/-- A packed word or a raw beat: 0x and 1 to 16 hexadecimal digits (R75). -/
def readBeat : List Char → Option Beat
  | '0' :: 'x' :: rest => if rest.length ≤ 16 then (readNumber 16 hexDigit rest).map (BitVec.ofNat 64) else none
  | _ => none

/-- A space or a tab. -/
def isBlank (c : Char) : Bool := c == ' ' || c == '\t'

/-- A text without the blanks around it. -/
def trimBlanks (cs : List Char) : List Char := ((cs.dropWhile isBlank).reverse.dropWhile isBlank).reverse

/-- A text cut at every comma: at least one piece. -/
def splitCommas : List Char → List (List Char)
  | [] => [[]]
  | c :: rest =>
    if c = ',' then [] :: splitCommas rest
    else match splitCommas rest with
      | piece :: pieces => (c :: piece) :: pieces
      | [] => [[c]]

/-- The operands of a line, comma-separated. -/
def readOperands (cs : List Char) : List (List Char) :=
  if trimBlanks cs = [] then [] else (splitCommas cs).map trimBlanks

/-- Every piece read as an integer of an n-bit field. -/
def readIntegers (n : Nat) : List (List Char) → Option (List Int)
  | [] => some []
  | p :: rest =>
    match readInteger n p, readIntegers n rest with
    | some v, some vs => some (v :: vs)
    | _, _ => none

/-- The words that begin a line (R75). -/
inductive Mnemonic where
  | validate | level | encode | decode | decodeset | score | bootinfo | beat
deriving DecidableEq, Repr

/-- How a mnemonic is spelled (R75). -/
def Mnemonic.text : Mnemonic → List Char
  | .validate => ['V', 'A', 'L', 'I', 'D', 'A', 'T', 'E']
  | .level => ['L', 'E', 'V', 'E', 'L']
  | .encode => ['E', 'N', 'C', 'O', 'D', 'E']
  | .decode => ['D', 'E', 'C', 'O', 'D', 'E']
  | .decodeset => ['D', 'E', 'C', 'O', 'D', 'E', 'S', 'E', 'T']
  | .score => ['S', 'C', 'O', 'R', 'E']
  | .bootinfo => ['B', 'O', 'O', 'T', 'I', 'N', 'F', 'O']
  | .beat => ['.', 'b', 'e', 'a', 't']

/-- Every mnemonic. -/
def Mnemonic.all : List Mnemonic :=
  [.validate, .level, .encode, .decode, .decodeset, .score, .bootinfo, .beat]

/-- The mnemonic a text spells. -/
def readMnemonic (cs : List Char) : Option Mnemonic := Mnemonic.all.find? fun m => m.text == cs

/-- The line of a mnemonic and its operands (R75), before the range checks of R77. -/
def readRequest (m : Mnemonic) (ops : List (List Char)) : Option AsmLine :=
  match m, ops with
  | .validate, [v] => (readInteger 32 v).map fun v => .request (.validate v)
  | .level, [v] => (readInteger 32 v).map fun v => .request (.level v)
  | .encode, vs => (readIntegers 32 vs).map fun vs => .request (.encode vs)
  | .decode, [q, w0, w1, w2, w3] =>
    match readInteger 16 q, readBeat w0, readBeat w1, readBeat w2, readBeat w3 with
    | some q, some w0, some w1, some w2, some w3 => some (.request (.decode q w0 w1 w2 w3))
    | _, _, _, _, _ => none
  | .decodeset, [t, q] =>
    match readInteger 16 t, readInteger 16 q with
    | some t, some q => some (.request (.decodeset t q))
    | _, _ => none
  | .score, [t, q] =>
    match readInteger 16 t, readInteger 16 q with
    | some t, some q => some (.request (.score t q))
    | _, _ => none
  | .bootinfo, [] => some (.request .bootinfo)
  | .beat, [b] => (readBeat b).map .beat
  | _, _ => none

/-- What a line of text says: nothing (blank, or only a comment), a line, or something the assembler refuses. -/
inductive ReadLine where
  | empty
  | line (l : AsmLine)
  | refused
deriving DecidableEq, Repr

/-- One line of text (R75): everything from a ; on is a comment. -/
def readLine (cs : List Char) : ReadLine :=
  let body := trimBlanks (cs.takeWhile (· ≠ ';'))
  if body = [] then .empty
  else match readMnemonic (body.takeWhile fun c => !isBlank c) with
    | none => .refused
    | some m =>
      match readRequest m (readOperands (body.dropWhile fun c => !isBlank c)) with
      | none => .refused
      | some l => .line l

/-- The beats a program's text assembles to, one request a line (R75, R77); refused when a line is. -/
def assembleText : List (List Char) → Option (List Beat)
  | [] => some []
  | l :: rest =>
    match readLine l with
    | .empty => assembleText rest
    | .refused => none
    | .line a =>
      match a.assemble, assembleText rest with
      | some bs, some cs => some (bs ++ cs)
      | _, _ => none

/-- The decimal digit of a number below 10. -/
def decChar (d : Nat) : Char := Char.ofNat (48 + d)

/-- The hexadecimal digit of a number below 16. -/
def hexChar (d : Nat) : Char := if d < 10 then Char.ofNat (48 + d) else Char.ofNat (55 + d)

/-- The decimal digits of a number, before the text `tail`, over at most `fuel` digits. -/
def decText : (fuel : Nat) → Nat → List Char → List Char
  | 0, _, tail => tail
  | fuel + 1, m, tail => if m < 10 then decChar m :: tail else decText fuel (m / 10) (decChar (m % 10) :: tail)

/-- An integer in decimal. -/
def integerText (i : Int) : List Char :=
  if i < 0 then '-' :: decText (i.natAbs + 1) i.natAbs [] else decText (i.natAbs + 1) i.natAbs []

/-- A beat as 0x and 16 hexadecimal digits (R78). -/
def beatText (b : Beat) : List Char :=
  '0' :: 'x' :: (List.range 16).map fun k => hexChar (b.toNat / 16 ^ (15 - k) % 16)

/-- Operands with a comma and a space between them. -/
def operandsText : List (List Char) → List Char
  | [] => []
  | [p] => p
  | p :: rest => p ++ [',', ' '] ++ operandsText rest

/-- A line's mnemonic and operands. -/
def requestText : AsmLine → Mnemonic × List (List Char)
  | .request (.validate v) => (.validate, [integerText v])
  | .request (.level v) => (.level, [integerText v])
  | .request (.encode vs) => (.encode, vs.map integerText)
  | .request (.decode q w0 w1 w2 w3) => (.decode, [integerText q, beatText w0, beatText w1, beatText w2, beatText w3])
  | .request (.decodeset t q) => (.decodeset, [integerText t, integerText q])
  | .request (.score t q) => (.score, [integerText t, integerText q])
  | .request .bootinfo => (.bootinfo, [])
  | .beat b => (.beat, [beatText b])

/-- The text of a line, as the disassembler prints it (R75, R78). -/
def AsmLine.text (l : AsmLine) : List Char :=
  match requestText l with
  | (m, []) => m.text
  | (m, ops) => m.text ++ [' '] ++ operandsText ops

end Sys2Proof.Machine
end

