-- ==== Sys2Proof/Machine/HostPort.lean ====
section
/-! DEFINITION. What the outside can do to the block (spec/10_state.md R26, R28, spec/70_reset_and_hazards.md R190 to R203):
send a beat, take a beat of a response, let responses pile up until the request channel stalls, and reset. There is no
interrupt and no other input (spec/60_exceptions.md R174, R182). A reset falls between two steps (log entry 9); a sent beat
is one the block has accepted (log entry 5). -/

namespace Sys2Proof.Machine

/-- The host offers one beat, and an open block accepts it (log entry 5). While the channel is closed the beat is not accepted and the host keeps it (R197). -/
def State.sendBeat (s : State) (b : Beat) : State := if s.chanOpen then { s with reqIn := s.reqIn ++ [b] } else s

/-- The host offers beats one after another. -/
def State.sendBeats (s : State) : List Beat → State
  | [] => s
  | b :: rest => (s.sendBeat b).sendBeats rest

/-- The host takes the oldest beat of the response channel. When the last one is taken a stall is over (R203); while others
wait it may go on (log entry 4). -/
def State.takeBeat (s : State) : State :=
  { s with respOut := s.respOut.drop 1, stalled := s.stalled && !(s.respOut.drop 1).isEmpty }

/-- The host takes `n` beats. -/
def State.takeBeats (s : State) : Nat → State
  | 0 => s
  | n + 1 => s.takeBeat.takeBeats n

/-- The beat that taking gives. -/
def State.offeredBeat (s : State) : Option Beat := s.respOut.head?

/-- The request channel may stall while responses are not taken, and only then (R203). Log entry 4. -/
def State.stall (s : State) : State := if s.respOut = [] then s else { s with stalled := true }

/-- A stall may end before every response is taken (R203). Log entry 4. -/
def State.resume (s : State) : State := { s with stalled := false }

/-- How a host finds the end of a response (R70, R200): four payload beats when the request was ENCODE and the header's
error bits [4:0] are all zero, and none otherwise. -/
def responsePayloadLen (isEncode : Bool) (h : Beat) : Nat := if isEncode && h.extractLsb' 0 5 == 0#5 then 4 else 0

/-- The request is ENCODE. -/
def isEncodeRequest : Instr → Bool
  | .encode _ => true
  | .validate _ => false
  | .level _ => false
  | .decode _ _ _ _ _ => false
  | .decodeset _ _ => false
  | .score _ _ => false
  | .bootinfo => false

/-- A host matches responses to its requests by order alone, counting the beats of each (R200): the header and the payload
of each response, for as many requests as the beats allow. -/
def matchResponses : List Instr → List Beat → List (Beat × List Beat)
  | [], _ => []
  | _ :: _, [] => []
  | i :: rest, h :: bs =>
    let q := responsePayloadLen (isEncodeRequest i) h
    (h, bs.take q) :: matchResponses rest (bs.drop q)

/-- Reset, step 1: the channels are emptied, and nothing is accepted from here to step 3 (R191, R194, R195). -/
def State.resetBegin (s : State) : State :=
  { s with reqBuf := [], reqIn := [], respOut := [], chanOpen := false, stalled := false }

/-- Reset, step 2: construction from the two configuration parameters, NUM_TABLES and the contents `data` of TABLE_DATA
(R190 to R192). -/
def State.resetConstruct (s : State) (data : Nat → Nat → BitVec 32) : State :=
  { s with built := construct s.numTables data }

/-- Reset, step 3: the request channel is opened (R191). -/
def State.resetOpen (s : State) : State := { s with chanOpen := true }

/-- Steps 2 and 3 together: nothing of step 2 is visible to the host until step 3 (R191). -/
def State.resetFinish (s : State) (data : Nat → Nat → BitVec 32) : State := (s.resetConstruct data).resetOpen

/-- A whole reset, of any state (R190, R191). -/
def State.doReset (s : State) (data : Nat → Nat → BitVec 32) : State := s.resetBegin.resetFinish data

/-- Everything that can happen to the block. -/
inductive Event where
  /-- The host offers a beat. -/
  | send (b : Beat)
  /-- The host takes a beat. -/
  | take
  /-- The request channel stalls. -/
  | stall
  /-- A stall ends. -/
  | resume
  /-- A reset begins. -/
  | resetBegin
  /-- A reset that has begun ends. -/
  | resetFinish
  /-- The block takes one step of its own. -/
  | run
deriving DecidableEq, Repr

/-- One event of a block whose TABLE_DATA is `data`. A reset ends only after it has begun: while it lasts the channel is
closed (R191). -/
inductive Happens (data : Nat → Nat → BitVec 32) : Event → State → State → Prop where
  | send (s : State) (b : Beat) : Happens data (.send b) s (s.sendBeat b)
  | take (s : State) : Happens data .take s s.takeBeat
  | stall (s : State) : Happens data .stall s s.stall
  | resume (s : State) : Happens data .resume s s.resume
  | resetBegin (s : State) : Happens data .resetBegin s s.resetBegin
  | resetFinish (s : State) (h : s.chanOpen = false) : Happens data .resetFinish s (s.resetFinish data)
  | run (s t : State) (h : step s = .next t) : Happens data .run s t

/-- The states that any sequence of events reaches from the reset of a block with `n` tables whose contents are `data`. -/
inductive Reachable (n : Nat) (data : Nat → Nat → BitVec 32) : State → Prop where
  | reset : Reachable n data (State.afterReset n data)
  | event (e : Event) (s t : State) (hs : Reachable n data s) (h : Happens data e s t) : Reachable n data t

end Sys2Proof.Machine
end

