-- ==== Sys2Proof/Safety.lean ====
section
/-! DEFINITION. The words claims are stated in: valid Values, the response header as a number, what a consistent block is,
and the invariant every step keeps. -/

namespace Sys2Proof.Machine

/-- A valid Value: a multiple of 5 in [-35, 40] (spec/00_scope.md R6). -/
abbrev ValidValue (v : Int) : Prop := 5 ∣ v ∧ -35 ≤ v ∧ v ≤ 40

/-- The response header as a sum of its fields, each at its place of spec/30_encoding.md R72, written apart from
`Response.header`. -/
def responseWord (b : Built) (e : ErrorSet) (result : BitVec 32) (sq : BitVec 6 := 0) (tbl : BitVec 8 := 0)
    (binv boor : Bool := false) : Beat :=
  BitVec.ofNat 64 (e.inv.toNat + 2 * e.oor.toNat + 4 * e.iob.toNat + 8 * e.nav.toNat + 16 * e.ill.toNat
    + 2 ^ 8 * sq.toNat + 2 ^ 16 * tbl.toNat + 2 ^ 24 * b.ready.toNat + 2 ^ 25 * b.failed.toNat
    + 2 ^ 26 * binv.toNat + 2 ^ 27 * boor.toNat + 2 ^ 32 * result.toNat)

/-- The error bits of a response header are all zero (R70, R72). -/
abbrev noErrorBits (h : Beat) : Prop := h.extractLsb' 0 5 = 0#5

/-- A command answers `bs` and does nothing else: `bs` goes to the end of the response channel, and the request channel,
the construction registers and STORE are as they were (spec/10_state.md R30, spec/60_exceptions.md R173). -/
def Answers (i : Instr) (s : State) (bs : List Beat) : Prop :=
  exec i s = .next { s with respOut := s.respOut ++ bs }

/-- A step leads to a next state: it neither faults nor refuses. -/
def StepRuns (s : State) : Prop := ∃ t, step s = .next t

/-- The received part of a packet: no beats, or a header and fewer payload beats than its opcode takes (R28). -/
def partialPacket : List Beat → Bool
  | [] => true
  | h :: tail => decide (tail.length < payloadLen h)

/-- What construction can leave in a block of `n` tables (R25, spec/70_reset_and_hazards.md R192). -/
structure Built.Consistent (n : Nat) (b : Built) : Prop where
  /-- READY = 1 - FAILED. -/
  ready_not_failed : b.ready = !b.failed
  /-- A READY block has every BOOT_ register zero. -/
  boot_zero : b.ready = true → b.bootInv = false ∧ b.bootOor = false ∧ b.bootTable = 0 ∧ b.bootSquare = 0 ∧ b.bootValue = 0
  /-- A FAILED block records the constraints that the recorded value violates, and it violates one. -/
  boot_kinds : b.failed = true →
    b.bootInv = (validate b.bootValue.toInt).inv ∧ b.bootOor = (validate b.bootValue.toInt).oor ∧
      (b.bootInv || b.bootOor) = true
  /-- The recorded table is one of the block's. -/
  boot_table : b.failed = true → b.bootTable.toNat < n
  /-- A FAILED block's STORE is all zero. -/
  store_zero : b.failed = true → b.store = []
  /-- STORE is in canonical form. -/
  store_wf : b.store.wf = true
  /-- STORE lists no word outside 0 to 4n-1. -/
  store_within : b.store.within n = true

/-- The invariant of the block. -/
structure State.Inv (s : State) : Prop where
  /-- The number of tables is in the spec's range (R9). -/
  numTables_range : 1 ≤ s.numTables ∧ s.numTables ≤ 256
  /-- The received part of a packet is never a whole packet. -/
  reqBuf_partial : partialPacket s.reqBuf = true
  /-- The channel stalls only while responses wait to be taken (R203). -/
  stalled_pending : s.stalled = true → s.respOut ≠ []
  /-- While a reset lasts both channels are empty (R191, R195). -/
  closed_empty : s.chanOpen = false → s.reqBuf = [] ∧ s.reqIn = [] ∧ s.respOut = []
  /-- What reset built is consistent. -/
  built_consistent : s.built.Consistent s.numTables

/-- The beats of a sequence of requests, in order. -/
def requestStream : List Instr → List Beat
  | [] => []
  | i :: rest => encode i ++ requestStream rest

/-- The response a command gets in a block of `n` tables whose construction left `b` (R30: it depends on nothing else). -/
def responseTo (n : Nat) (b : Built) : Instr → Response
  | .validate v => validateResponse v
  | .level v => levelResponse v
  | .encode vs => encodeResponse vs
  | .decode q w0 w1 w2 w3 => decodeResponse q ⟨w0, w1, w2, w3⟩
  | .decodeset t q => lookupResponse n b t q
  | .score t q => lookupResponse n b t q
  | .bootinfo => bootinfoResponse b

/-- The beats of the responses to a sequence of requests, in order (spec/20_memory.md R50). -/
def responseStream (n : Nat) (b : Built) : List Instr → List Beat
  | [] => []
  | i :: rest => (responseTo n b i).beats b ++ responseStream n b rest

/-- One whole request packet, legal or not: a header and exactly the payload beats its opcode takes
(spec/30_encoding.md R60, R65). -/
def isPacket : List Beat → Bool
  | [] => false
  | h :: tail => decide (tail.length = payloadLen h)

/-- The beats of the response to one request packet, in a block of `n` tables whose construction left `b`: its
command's response, or ILL for an illegal header (spec/43_control.md R163). -/
def packetResponse (n : Nat) (b : Built) (p : List Beat) : List Beat :=
  match decode p with
  | .instr i _ => (responseTo n b i).beats b
  | .illegal _ _ => (raise { ill := true }).beats b
  | .incomplete => []

/-- Entry (k, s) is the first invalid entry of TABLE_DATA in (table, square) order (R192). -/
def FirstInvalid (n : Nat) (data : Nat → Nat → BitVec 32) (k s : Nat) : Prop :=
  k < n ∧ s < 64 ∧ ¬ ValidValue (data k s).toInt ∧
    ∀ k' s', s' < 64 → (k' < k ∨ (k' = k ∧ s' < s)) → ValidValue (data k' s').toInt

/-- Every entry of the first `n` tables is valid. -/
def AllValid (n : Nat) (data : Nat → Nat → BitVec 32) : Prop :=
  ∀ k s, k < n → s < 64 → ValidValue (data k s).toInt

end Sys2Proof.Machine
end

