-- ==== Sys2Proof/Certificates/Slice0/Obligations.lean ====
section
/-! DEFINITION. The statements for the provers, in the order of OBLIGATIONS.json. They are about the machine for every
state, every operand, every number of tables and every content of TABLE_DATA. -/

open Sys2Proof Sys2Proof.Machine

/-! ### The commands -/

/-- R102: what VALIDATE answers, for every value, and which headers are VALIDATE. -/
def Obligations.ValidateReportsViolatedConstraints : Prop :=
  (∀ (v : Int) (s : State), Answers (.validate v) s
    [responseWord s.built { inv := decide (¬ 5 ∣ v), oor := decide (v < -35 ∨ 40 < v) } 0]) ∧
  ∀ (h : Beat) (tail : List Beat), h &&& 0x00000000FFFFFFFF#64 = 0x0000000000000001#64 →
    decode (h :: tail) = .instr (.validate (BitVec.ofNat 32 (h.toNat / 2 ^ 32)).toInt) tail

/-- R104, R101: what LEVEL answers, for every value, and which headers are LEVEL. -/
def Obligations.LevelReturnsLevelOrConstraints : Prop :=
  (∀ (v : Int) (s : State), ValidValue v →
    Answers (.level v) s [responseWord s.built {} (BitVec.ofInt 32 (v / 5 + 7))] ∧ 0 ≤ v / 5 + 7 ∧ v / 5 + 7 ≤ 15) ∧
  (∀ (v : Int) (s : State), ¬ ValidValue v → Answers (.level v) s
    [responseWord s.built { inv := decide (¬ 5 ∣ v), oor := decide (v < -35 ∨ 40 < v) } 0]) ∧
  ∀ (h : Beat) (tail : List Beat), h &&& 0x00000000FFFFFFFF#64 = 0x0000000000000002#64 →
    decode (h :: tail) = .instr (.level (BitVec.ofNat 32 (h.toNat / 2 ^ 32)).toInt) tail

/-- R121: 64 valid values pack into four words whose slot j of word i is the level of square 16i + j. -/
def Obligations.EncodePacksValidTable : Prop :=
  ∀ (vs : List Int) (s : State), vs.length = 64 → (∀ v ∈ vs, ValidValue v) →
    ∃ w : Fin 4 → Beat, Answers (.encode vs) s [responseWord s.built {} 0, w 0, w 1, w 2, w 3] ∧
      ∀ (i : Fin 4) (j : Fin 16) (v : Int), vs[16 * i.val + j.val]? = some v →
        (w i).extractLsb' (4 * j.val) 4 = BitVec.ofInt 4 (v / 5 + 7)

/-- R124, R123: a table with invalid values is answered with the lowest offending square, its value and every constraint
it violates, and with no payload. -/
def Obligations.EncodeReportsFirstOffendingSquare : Prop :=
  ∀ (vs : List Int) (q : Nat) (v : Int) (s : State), vs.length = 64 → vs[q]? = some v → ¬ ValidValue v →
    (∀ (q' : Nat) (v' : Int), q' < q → vs[q']? = some v' → ValidValue v') →
    Answers (.encode vs) s
      [responseWord s.built { inv := decide (¬ 5 ∣ v), oor := decide (v < -35 ∨ 40 < v) } (BitVec.ofInt 32 v)
        (sq := BitVec.ofNat 6 q)]

/-- R66: how the 32 payload beats of ENCODE carry the 64 values. -/
def Obligations.EncodePayloadCarriesValuesInSquareOrder : Prop :=
  ∀ (payload rest : List Beat), payload.length = 32 → ∃ vs : List Int,
    decode (0x0000000000000003#64 :: (payload ++ rest)) = .instr (.encode vs) rest ∧ vs.length = 64 ∧
      ∀ q < 64, ∃ b : Beat, payload[q / 2]? = some b ∧
        vs[q]? = some (BitVec.ofNat 32 (b.toNat / 2 ^ (32 * (q % 2)))).toInt

/-- R122: an ENCODE request on the channel, from its 33 beats to its response: the four packed words when every value is
valid, and otherwise the first offending square with its value and every constraint it violates. -/
def Obligations.EncodeRequestIsAnswered : Prop :=
  ∀ (s : State) (payload rest : List Beat) (value : Nat → Int), s.chanOpen = true → s.stalled = false → s.reqBuf = [] →
    s.reqIn = 0x0000000000000003#64 :: (payload ++ rest) → payload.length = 32 →
    (∀ q < 64, ∃ b : Beat, payload[q / 2]? = some b ∧
      value q = (BitVec.ofNat 32 (b.toNat / 2 ^ (32 * (q % 2)))).toInt) →
    ((∀ q < 64, ValidValue (value q)) → ∃ w : Fin 4 → Beat,
      step s = .next { s with reqIn := rest,
                              respOut := s.respOut ++ [responseWord s.built {} 0, w 0, w 1, w 2, w 3] } ∧
      ∀ (i : Fin 4) (j : Fin 16),
        (w i).extractLsb' (4 * j.val) 4 = BitVec.ofInt 4 (value (16 * i.val + j.val) / 5 + 7)) ∧
    ∀ q < 64, ¬ ValidValue (value q) → (∀ q' < q, ValidValue (value q')) →
      step s = .next { s with
        reqIn := rest
        respOut := s.respOut ++
          [responseWord s.built { inv := decide (¬ 5 ∣ value q), oor := decide (value q < -35 ∨ 40 < value q) }
            (BitVec.ofInt 32 (value q)) (sq := BitVec.ofNat 6 q)] }

/-- R143: what DECODE answers, for every square and every four words, and which headers are DECODE. -/
def Obligations.DecodeReturnsSquareOrIndexError : Prop :=
  (∀ (q : Fin 64) (w0 w1 w2 w3 : Beat) (s : State), ∃ w : Beat, [w0, w1, w2, w3][q.val / 16]? = some w ∧
    Answers (.decode q.val w0 w1 w2 w3) s
      [responseWord s.built {} (BitVec.ofInt 32 (((w.toNat / 2 ^ (4 * (q.val % 16)) % 16 : Nat) - 7 : Int) * 5))]) ∧
  (∀ (q : Int) (w0 w1 w2 w3 : Beat) (s : State), (q < 0 ∨ 64 ≤ q) →
    Answers (.decode q w0 w1 w2 w3) s [responseWord s.built { iob := true } 0]) ∧
  ∀ (h w0 w1 w2 w3 : Beat) (rest : List Beat), h &&& 0xFFFF0000FFFFFFFF#64 = 0x0000000000000004#64 →
    decode (h :: w0 :: w1 :: w2 :: w3 :: rest) =
      .instr (.decode (BitVec.ofNat 16 (h.toNat / 2 ^ 32)).toInt w0 w1 w2 w3) rest

/-- R145: what DECODESET answers, for every number of tables, every table, every square and whatever reset built, and which
headers are DECODESET. -/
def Obligations.DecodesetReturnsSquareOrErrors : Prop :=
  (∀ (k q : Nat) (s : State), k < s.numTables → q < 64 → s.built.ready = true → Answers (.decodeset k q) s
    [responseWord s.built {}
      (BitVec.ofInt 32 ((((s.built.store.read (4 * k + q / 16)).toNat / 2 ^ (4 * (q % 16)) % 16 : Nat) - 7 : Int) * 5))]) ∧
  (∀ (t q : Int) (s : State), (s.built.ready = false ∨ t < 0 ∨ s.numTables ≤ t ∨ q < 0 ∨ 64 ≤ q) →
    Answers (.decodeset t q) s [responseWord s.built
      { nav := !s.built.ready, iob := decide (t < 0 ∨ s.numTables ≤ t ∨ q < 0 ∨ 64 ≤ q) } 0]) ∧
  ∀ (h : Beat) (tail : List Beat), h &&& 0x00000000FFFFFFFF#64 = 0x0000000000000005#64 →
    decode (h :: tail) =
      .instr (.decodeset (BitVec.ofNat 16 (h.toNat / 2 ^ 48)).toInt (BitVec.ofNat 16 (h.toNat / 2 ^ 32)).toInt) tail

/-- R147, R76: SCORE has DECODESET's beats, answers as R145 says in every state, and is shown as DECODESET by a
disassembler. -/
def Obligations.ScoreIsDecodeset : Prop :=
  (∀ t q : Int, encode (.score t q) = encode (.decodeset t q)) ∧
  (∀ (t q : Int) (s : State) (bs : List Beat), Answers (.score t q) s bs ↔ Answers (.decodeset t q) s bs) ∧
  (∀ (k q : Nat) (s : State), k < s.numTables → q < 64 → s.built.ready = true → Answers (.score k q) s
    [responseWord s.built {}
      (BitVec.ofInt 32 ((((s.built.store.read (4 * k + q / 16)).toNat / 2 ^ (4 * (q % 16)) % 16 : Nat) - 7 : Int) * 5))]) ∧
  (∀ (t q : Int) (s : State), (s.built.ready = false ∨ t < 0 ∨ s.numTables ≤ t ∨ q < 0 ∨ 64 ≤ q) →
    Answers (.score t q) s [responseWord s.built
      { nav := !s.built.ready, iob := decide (t < 0 ∨ s.numTables ≤ t ∨ q < 0 ∨ 64 ≤ q) } 0]) ∧
  ∀ (t q : Int), (Instr.score t q).wellFormed = true →
    disassemble (encode (.score t q)) = [.request (.decodeset t q)]

/-- R161: what BOOTINFO answers, and that its header is exactly 6. -/
def Obligations.BootinfoReportsConstruction : Prop :=
  (∀ s : State, Answers .bootinfo s [responseWord s.built {} s.built.bootValue (sq := s.built.bootSquare)
    (tbl := s.built.bootTable) (binv := s.built.bootInv) (boor := s.built.bootOor)]) ∧
  ∀ tail : List Beat, decode (0x0000000000000006#64 :: tail) = .instr .bootinfo tail

/-- R163: a request with an illegal header is answered with ILL alone, and its payload beats are consumed. -/
def Obligations.IllegalRequestAnswersIll : Prop :=
  ∀ (s : State) (h : Beat) (tail : List Beat), s.chanOpen = true → s.stalled = false →
    s.reqBuf ++ s.reqIn = h :: tail →
    (∀ r ∈ opcodeRows, h &&& r.maskBits ≠ r.matchBits) →
    payloadLen h ≤ tail.length →
    step s = .next { s with reqBuf := [], reqIn := tail.drop (payloadLen h),
                            respOut := s.respOut ++ [responseWord s.built { ill := true } 0] }

/-- R73: in every response, the answer to an illegal request among them, READY and FAILED are the state's bits, the unused
bits are zero, RESULT is zero in every error response but ENCODE's, and the fields that only BOOTINFO or ENCODE sets are
zero in the others. -/
def Obligations.ResponseCommonFields : Prop :=
  (∀ (i : Instr) (s : State), ∃ (h : Beat) (payload : List Beat), Answers i s (h :: payload) ∧
    h.getLsbD 24 = s.built.ready ∧ h.getLsbD 25 = s.built.failed ∧
    h.extractLsb' 28 4 = 0#4 ∧ h.extractLsb' 14 2 = 0#2 ∧ h.extractLsb' 5 3 = 0#3 ∧
    (¬ noErrorBits h → (∀ vs, i ≠ .encode vs) → h.extractLsb' 32 32 = 0#32) ∧
    (i ≠ .bootinfo → h.extractLsb' 16 8 = 0#8 ∧ h.extractLsb' 26 2 = 0#2) ∧
    (i ≠ .bootinfo → ((∀ vs, i ≠ .encode vs) ∨ noErrorBits h) → h.extractLsb' 8 6 = 0#6) ∧
    (((∃ v, i = .validate v) ∨ (∃ vs, i = .encode vs) ∧ noErrorBits h) → h.extractLsb' 32 32 = 0#32)) ∧
  ∀ s : State, ∃ h : Beat, execIllegal s = .next { s with respOut := s.respOut ++ [h] } ∧
    h.getLsbD 24 = s.built.ready ∧ h.getLsbD 25 = s.built.failed ∧ h.extractLsb' 0 24 = 16#24 ∧
    h.extractLsb' 26 38 = 0#38

/-- R70, R74: a response is one header beat, and four payload beats exactly when it is a success of ENCODE. -/
def Obligations.ResponseLength : Prop :=
  ∀ (i : Instr) (s : State), ∃ (h : Beat) (payload : List Beat), Answers i s (h :: payload) ∧
    (payload.length = 4 ∨ payload = []) ∧
    (payload.length = 4 ↔ (∃ vs, i = .encode vs) ∧ noErrorBits h)

/-- R170, R176: which command can raise which kind of error: no command raises ILL, only VALIDATE, LEVEL and ENCODE raise INV
and OOR, only DECODE and the lookups raise IOB, and only the lookups raise NAV, in a block that is not READY. -/
def Obligations.ErrorKindsByCommand : Prop :=
  ∀ (i : Instr) (s : State), ∃ (h : Beat) (payload : List Beat), Answers i s (h :: payload) ∧ h.getLsbD 4 = false ∧
    (h.getLsbD 0 = true ∨ h.getLsbD 1 = true →
      (∃ v, i = .validate v) ∨ (∃ v, i = .level v) ∨ ∃ vs, i = .encode vs) ∧
    (h.getLsbD 2 = true →
      (∃ q w0 w1 w2 w3, i = .decode q w0 w1 w2 w3) ∨ (∃ t q, i = .decodeset t q) ∨ ∃ t q, i = .score t q) ∧
    (h.getLsbD 3 = true →
      ((∃ t q, i = .decodeset t q) ∨ ∃ t q, i = .score t q) ∧ s.built.ready = false)

/-! ### Frames and isolation -/

/-- R30: the frame of every command and of every step: nothing that reset built changes, nor the number of tables (R27), and
a response only grows the response channel. -/
def Obligations.StepKeepsEverythingResetBuilt : Prop :=
  (∀ (i : Instr) (s : State), ∃ t, exec i s = .next t ∧ t.built = s.built ∧ t.numTables = s.numTables ∧
    t.reqBuf = s.reqBuf ∧ t.reqIn = s.reqIn ∧ t.chanOpen = s.chanOpen ∧ t.stalled = s.stalled ∧ (∀ w, t.built.store.read w = s.built.store.read w) ∧
    ∃ bs, t.respOut = s.respOut ++ bs) ∧
  ∀ s t : State, step s = .next t → t.built = s.built ∧ t.numTables = s.numTables ∧
    t.chanOpen = s.chanOpen ∧ t.stalled = s.stalled ∧ ∃ bs, t.respOut = s.respOut ++ bs

/-- R172: no state makes a step stop, so an error neither halts nor locks the block. -/
def Obligations.StepNeverStops : Prop := ∀ s : State, StepRuns s

/-- R30, R47, R51: a command's response depends on NUM_TABLES and on what reset built, and on nothing else of the state. -/
def Obligations.ResponseDependsOnlyOnConstruction : Prop :=
  ∀ (i : Instr) (s t : State), s.numTables = t.numTables → s.built = t.built → ∃ bs, Answers i s bs ∧ Answers i t bs

/-- R29, R40, R192: STORE is opaque. Only a lookup in a READY block reads it, and a lookup reveals no more than the one
slot it decodes. -/
def Obligations.StoreIsOpaque : Prop :=
  (∀ (i : Instr) (s : State) (m : Memory),
    ((∀ t q, i ≠ .decodeset t q) ∧ (∀ t q, i ≠ .score t q)) ∨ s.built.ready = false →
    ∃ bs, Answers i s bs ∧ Answers i { s with built := { s.built with store := m } } bs) ∧
  ∀ (k q : Nat) (s : State) (m : Memory), k < s.numTables → q < 64 →
    (s.built.store.read (4 * k + q / 16)).toNat / 2 ^ (4 * (q % 16)) % 16 =
      (m.read (4 * k + q / 16)).toNat / 2 ^ (4 * (q % 16)) % 16 →
    ∃ bs, Answers (.decodeset k q) s bs ∧ Answers (.decodeset k q) { s with built := { s.built with store := m } } bs

/-- R162: BOOTINFO is the only command whose response depends on the BOOT_ registers. -/
def Obligations.OnlyBootinfoReadsBootRegisters : Prop :=
  ∀ (i : Instr) (s : State) (bi bo : Bool) (bt : BitVec 8) (bq : BitVec 6) (bv : BitVec 32), i ≠ .bootinfo →
    ∃ bs, Answers i s bs ∧
      Answers i { s with built := { s.built with bootInv := bi, bootOor := bo, bootTable := bt, bootSquare := bq,
                                                 bootValue := bv } } bs

/-- R148: a lookup that cannot answer sets IOB or NAV and has RESULT zero, and a lookup with clear error bits returns a valid
Value. -/
def Obligations.LookupFailsLoudly : Prop :=
  ∀ (t q : Int) (s : State), ∃ h : Beat, Answers (.decodeset t q) s [h] ∧ Answers (.score t q) s [h] ∧
    ((s.built.ready = false ∨ t < 0 ∨ s.numTables ≤ t ∨ q < 0 ∨ 64 ≤ q) →
      (h.getLsbD 2 = true ∨ h.getLsbD 3 = true) ∧ h.extractLsb' 32 32 = 0#32) ∧
    (noErrorBits h → ValidValue (h.extractLsb' 32 32).toInt)

/-! ### The codec -/

/-- R105, R142: level and unlevel are inverse to each other, and every 4-bit field decodes to a valid Value. -/
def Obligations.LevelAndUnlevelAreInverse : Prop :=
  (∀ v : Int, ValidValue v → unlevel (lvl4 v) = v) ∧
  ∀ f : BitVec 4, ValidValue (unlevel f) ∧ lvl4 (unlevel f) = f

/-- R41: the place of a slot: reading and inserting agree with the shift formulas, an insertion into a clear slot is read
back, and no other slot is disturbed. -/
def Obligations.SlotsAreDisjoint : Prop :=
  (∀ (w : Beat) (s : Nat), (w >>> (4 * (s % 16))) &&& 15#64 = (extract w s).setWidth 64) ∧
  (∀ (w : Beat) (s : Nat) (f : BitVec 4), extract w s = 0#4 → extract (insertSlot w s f) s = f) ∧
  ∀ (w : Beat) (s t : Nat) (f : BitVec 4), s % 16 ≠ t % 16 → extract (insertSlot w s f) t = extract w t

/-- R125: two valid tables that differ only at square `a` encode to words in which every other square decodes the same,
and every word but the one that holds `a` is the same. -/
def Obligations.EncodeOfOneSquareDisturbsNoOther : Prop :=
  ∀ (us vs : List Int) (a : Fin 64) (s : State), us.length = 64 → vs.length = 64 →
    (∀ v ∈ us, ValidValue v) → (∀ v ∈ vs, ValidValue v) → (∀ q, q ≠ a.val → us[q]? = vs[q]?) →
    ∃ w x : Fin 4 → Beat,
      Answers (.encode us) s [responseWord s.built {} 0, w 0, w 1, w 2, w 3] ∧
      Answers (.encode vs) s [responseWord s.built {} 0, x 0, x 1, x 2, x 3] ∧
      (∀ i : Fin 4, i.val ≠ a.val / 16 → w i = x i) ∧
      ∀ (i : Fin 4) (j : Fin 16), 16 * i.val + j.val ≠ a.val →
        (w i).extractLsb' (4 * j.val) 4 = (x i).extractLsb' (4 * j.val) 4

/-- R144: every square of an encoded table of valid values decodes to the value it had, in any state. -/
def Obligations.DecodeOfEncodeReturnsTheTable : Prop :=
  ∀ (vs : List Int) (s t : State), vs.length = 64 → (∀ v ∈ vs, ValidValue v) →
    ∃ h w0 w1 w2 w3 : Beat, noErrorBits h ∧ Answers (.encode vs) s [h, w0, w1, w2, w3] ∧
      ∀ (q : Fin 64) (v : Int), vs[q.val]? = some v →
        Answers (.decode q.val w0 w1 w2 w3) t [responseWord t.built {} (BitVec.ofInt 32 v)]

/-! ### Reset and construction -/

/-- R190, R191, R195: a reset of any state leads to the state that R193 gives for its number of tables and the contents of
TABLE_DATA: both channels empty, the request channel open, and construction done; while it lasts nothing is accepted. In
this block that state is the reset state. -/
def Obligations.ResetDiscardsAllState : Prop :=
  (∀ (s : State) (data : Nat → Nat → BitVec 32), (s.doReset data).numTables = s.numTables ∧
    (s.doReset data).reqBuf = [] ∧ (s.doReset data).reqIn = [] ∧ (s.doReset data).respOut = [] ∧
    (s.doReset data).chanOpen = true ∧ (s.doReset data).built = construct s.numTables data ∧
    s.doReset data = State.afterReset s.numTables data ∧
    (∀ bs : List Beat, s.resetBegin.sendBeats bs = s.resetBegin) ∧ step s.resetBegin = .next s.resetBegin) ∧
  ∀ s : State, s.numTables = 7 → s.doReset Config.tableData = State.reset

/-- R192, R193: with every entry valid, construction succeeds and slot j of word 4k + i of STORE holds the level of entry
(k, 16i + j). -/
def Obligations.ConstructionPacksValidTables : Prop :=
  ∀ (n : Nat) (data : Nat → Nat → BitVec 32), AllValid n data →
    (construct n data).ready = true ∧ (construct n data).failed = false ∧
    (construct n data).bootInv = false ∧ (construct n data).bootOor = false ∧ (construct n data).bootTable = 0#8 ∧
    (construct n data).bootSquare = 0#6 ∧ (construct n data).bootValue = 0#32 ∧
    ∀ (k : Nat) (i : Fin 4) (j : Fin 16), k < n →
      ((construct n data).store.read (4 * k + i.val)).extractLsb' (4 * j.val) 4 =
        BitVec.ofInt 4 ((data k (16 * i.val + j.val)).toInt / 5 + 7)

/-- R192, R193: with an invalid entry, construction records the first one in (table, square) order, clears READY, sets
FAILED and leaves every word of STORE zero. -/
def Obligations.ConstructionRecordsFirstInvalidEntry : Prop :=
  ∀ (n : Nat) (data : Nat → Nat → BitVec 32) (k s : Nat), n ≤ 256 → FirstInvalid n data k s →
    (construct n data).ready = false ∧ (construct n data).failed = true ∧
    (construct n data).bootInv = decide (¬ 5 ∣ (data k s).toInt) ∧
    (construct n data).bootOor = decide ((data k s).toInt < -35 ∨ 40 < (data k s).toInt) ∧
    (construct n data).bootTable.toNat = k ∧ (construct n data).bootSquare.toNat = s ∧
    (construct n data).bootValue = data k s ∧ ∀ w, (construct n data).store.read w = 0#64

/-- What holds of the registers and of STORE after every reset, whatever the number of tables and their contents: R25; from
R192 and R193, that the recorded kinds are those the recorded value violates and that the recorded table is one of the
block's; and from R48 and R193, in the model's form of STORE (log entry 2), that STORE is canonical, lists no word outside
its 4n words, and lists none after a failure. -/
def Obligations.ResetLeavesRegistersConsistent : Prop :=
  ∀ (n : Nat) (data : Nat → Nat → BitVec 32), 1 ≤ n → n ≤ 256 →
    (State.afterReset n data).built.Consistent n

/-- R146: in a READY block, DECODESET and SCORE return every entry of TABLE_DATA, and DECODE of the table's own words in
STORE returns the same. -/
def Obligations.LookupReturnsTableData : Prop :=
  ∀ (data : Nat → Nat → BitVec 32) (s : State), s.built = construct s.numTables data → s.built.ready = true →
    ∀ (k : Nat) (q : Fin 64), k < s.numTables →
      Answers (.decodeset k q.val) s [responseWord s.built {} (data k q.val)] ∧
      Answers (.score k q.val) s [responseWord s.built {} (data k q.val)] ∧
      Answers (.decode q.val (s.built.store.read (4 * k)) (s.built.store.read (4 * k + 1))
        (s.built.store.read (4 * k + 2)) (s.built.store.read (4 * k + 3))) s
        [responseWord s.built {} (data k q.val)]

/-- R10: TABLE_DATA(0, 11) is 20 in this block, and a READY block built from any contents with that entry answers 20 to
DECODESET 0, 11. -/
def Obligations.PawnTableSquareElevenIsTwenty : Prop :=
  Config.tableData 0 11 = 20#32 ∧
  ∀ (data : Nat → Nat → BitVec 32) (s : State), 1 ≤ s.numTables → data 0 11 = 20#32 →
    s.built = construct s.numTables data → s.built.ready = true →
    Answers (.decodeset 0 11) s [responseWord s.built {} 20#32]

/-- R9: NUM_TABLES is a parameter in 1 to 256, and the bound a lookup checks is always the block's own (C6): after a reset
with valid contents the last table is answered with its entry, and the first table id past it with IOB alone, by DECODESET
and by SCORE. This block has 7 tables, and the ids of its seven names are 0 to 6. -/
def Obligations.LookupBoundIsNumTables : Prop :=
  (∀ (n : Nat) (data : Nat → Nat → BitVec 32) (q : Fin 64), n + 1 ≤ 256 → AllValid (n + 1) data →
    Answers (.decodeset n q.val) (State.afterReset (n + 1) data)
      [responseWord (construct (n + 1) data) {} (data n q.val)] ∧
    Answers (.score n q.val) (State.afterReset (n + 1) data) [responseWord (construct (n + 1) data) {} (data n q.val)] ∧
    Answers (.decodeset (n + 1) q.val) (State.afterReset (n + 1) data)
      [responseWord (construct (n + 1) data) { iob := true } 0] ∧
    Answers (.score (n + 1) q.val) (State.afterReset (n + 1) data)
      [responseWord (construct (n + 1) data) { iob := true } 0]) ∧
  State.reset.numTables = 7 ∧
  Config.TableName.pawn.tableId = 0 ∧ Config.TableName.knight.tableId = 1 ∧ Config.TableName.bishop.tableId = 2 ∧
  Config.TableName.rook.tableId = 3 ∧ Config.TableName.queen.tableId = 4 ∧ Config.TableName.kingMidgame.tableId = 5 ∧
  Config.TableName.kingEndgame.tableId = 6

/-- R179: in a block whose construction failed, every lookup raises NAV, and every other command answers as it would in
any other block, but for the bits that copy the state. -/
def Obligations.FailedBlockAnswersLookupsWithNav : Prop :=
  ∀ (data : Nat → Nat → BitVec 32) (s : State), ¬ AllValid s.numTables data → s.built = construct s.numTables data →
    s.built.ready = false ∧ s.built.failed = true ∧
    (∀ t q : Int, ∃ h : Beat, Answers (.decodeset t q) s [h] ∧ Answers (.score t q) s [h] ∧ h.getLsbD 3 = true ∧
      h.getLsbD 25 = true ∧ h.extractLsb' 32 32 = 0#32) ∧
    ∀ (i : Instr) (u : State), (∀ t q, i ≠ .decodeset t q) → (∀ t q, i ≠ .score t q) → i ≠ .bootinfo →
      ∃ (h h' : Beat) (payload : List Beat), Answers i s (h :: payload) ∧ Answers i u (h' :: payload) ∧
        h.extractLsb' 0 24 = h'.extractLsb' 0 24 ∧ h.extractLsb' 26 38 = h'.extractLsb' 26 38

/-! ### Decoding -/

/-- R64, R68, R71: a header is decoded as a command exactly when it agrees with a row of the opcode map, and no header
agrees with two rows. -/
def Obligations.HeaderIsLegalExactlyByItsRow : Prop :=
  (∀ h : Beat, (∃ c, decodeHeader h = .ok c) ↔ ∃ r ∈ opcodeRows, h &&& r.maskBits = r.matchBits) ∧
  ∀ (h : Beat), ∀ r ∈ opcodeRows, ∀ r' ∈ opcodeRows,
    h &&& r.maskBits = r.matchBits → h &&& r'.maskBits = r'.matchBits → r = r'

/-- R65: after a header come exactly P(OPC) payload beats, legal or not: fewer and the request is incomplete, and as soon as
they are there the request ends after them. -/
def Obligations.PayloadLengthFollowsOpcodeAlone : Prop :=
  ∀ (h : Beat) (tail : List Beat),
    payloadLen h = (if h.toNat % 16 = 3 then 32 else if h.toNat % 16 = 4 then 4 else 0) ∧
    (decode (h :: tail) = .incomplete ↔ tail.length < payloadLen h) ∧
    (∀ i rest, decode (h :: tail) = .instr i rest → rest = tail.drop (payloadLen h)) ∧
    ∀ why rest, decode (h :: tail) = .illegal why rest → rest = tail.drop (payloadLen h)

/-- Decoding an encoded well-formed command, with any beats after it, gives the command back (SCORE as DECODESET). -/
def Obligations.DecodeOfEncodeIsTheCommand : Prop :=
  ∀ (i : Instr) (rest : List Beat), i.wellFormed = true → decode (encode i ++ rest) = .instr i.canonical rest

/-- What the decoder reads as a command is well formed, is never SCORE, and encodes back to the very beats it was read
from: each legal request has one meaning. -/
def Obligations.EncodeOfDecodeIsTheRequest : Prop :=
  ∀ (bs rest : List Beat) (i : Instr), decode bs = .instr i rest →
    i.wellFormed = true ∧ i.canonical = i ∧ encode i ++ rest = bs

/-- A few request words written out from the formats of R62 and the map of R64. -/
def Obligations.SampleWordsDecode : Prop :=
  decode [0b0000000000000000000000000010111100000000000000000000000000000001#64] = .instr (.validate 47) [] ∧
  decode [0b1111111111111111111111111101110100000000000000000000000000000010#64] = .instr (.level (-35)) [] ∧
  decode (0b0000000000000000000000000000000000000000000000000000000000000011#64 :: List.replicate 32 0#64) =
    .instr (.encode (List.replicate 64 0)) [] ∧
  decode [0b0000000000000000111111111111111100000000000000000000000000000100#64, 1#64, 2#64, 3#64, 4#64] =
    .instr (.decode (-1) 1#64 2#64 3#64 4#64) [] ∧
  decode [0b0000000000000011000000000001010000000000000000000000000000000101#64] = .instr (.decodeset 3 20) [] ∧
  decode [0b0000000000000000000000000000000000000000000000000000000000000110#64] = .instr .bootinfo []

/-! ### Steps and the channel -/

/-- A step runs the decoded command: where the channel is open and not stalled and the beats received decode to `i`, the
step is `exec i` on the state whose request channel holds the beats after it. -/
def Obligations.StepRunsDecodedCommand : Prop :=
  ∀ (s : State) (i : Instr) (rest : List Beat), s.chanOpen = true → s.stalled = false →
    decode (s.reqBuf ++ s.reqIn) = .instr i rest →
    step s = exec i { s with reqBuf := [], reqIn := rest }

/-- R50: a stream of request packets, legal or not, is executed in order, one step and one response each, in the same order;
each gets the response it would get alone. A stream of well-formed commands is a case of it. -/
def Obligations.StreamOfRequestsGetsResponsesInOrder : Prop :=
  (∀ (ps : List (List Beat)) (rest : List Beat) (s : State), (∀ p ∈ ps, isPacket p = true) → s.chanOpen = true →
    s.stalled = false → s.reqBuf = [] → s.reqIn = ps.flatten ++ rest →
    Host.Core.run Sys2Proof.core ps.length s =
      .next { s with reqIn := rest, respOut := s.respOut ++ (ps.map (packetResponse s.numTables s.built)).flatten }) ∧
  (∀ (p : List Beat) (n : Nat) (b : Built), isPacket p = true → packetResponse n b p ≠ []) ∧
  ∀ (is : List Instr) (rest : List Beat) (s : State), (∀ i ∈ is, i.wellFormed = true) → s.chanOpen = true →
    s.stalled = false → s.reqBuf = [] → s.reqIn = requestStream is ++ rest →
    Host.Core.run Sys2Proof.core is.length s =
      .next { s with reqIn := rest, respOut := s.respOut ++ responseStream s.numTables s.built is }

/-- R28: while a request is incomplete the block keeps its beats and waits, and it makes no difference whether the rest
arrives before the wait or after it. -/
def Obligations.IncompleteRequestIsKept : Prop :=
  ∀ (s : State) (more : List Beat), s.chanOpen = true → s.stalled = false → decode (s.reqBuf ++ s.reqIn) = .incomplete →
    ∃ t, step s = .next t ∧ t.reqBuf = s.reqBuf ++ s.reqIn ∧ t.reqIn = [] ∧ t.respOut = s.respOut ∧ t.built = s.built ∧
      step (t.sendBeats more) = step (s.sendBeats more)

/-- R203: a stalled block holds and changes nothing, and taking the responses lifts the hold: once they are all taken, the
request at the front runs. -/
def Obligations.TakingResponsesLiftsTheStall : Prop :=
  (∀ s : State, s.stalled = true → step s = .next s) ∧
  ∀ (s : State) (i : Instr) (rest : List Beat), s.Inv → s.chanOpen = true →
    decode (s.reqBuf ++ s.reqIn) = .instr i rest →
    ∃ (h : Beat) (payload : List Beat), step (s.takeBeats s.respOut.length) =
      .next { s with reqBuf := [], reqIn := rest, respOut := h :: payload, stalled := false }

/-- R200: a host that matches responses by order, counting one header and the payload of R70, finds each request's own
response. -/
def Obligations.HostMatchesResponsesByOrder : Prop :=
  ∀ (is : List Instr) (n : Nat) (b : Built),
    matchResponses is (responseStream n b is) =
      is.map fun i => ((responseTo n b i).header b, (responseTo n b i).payload)

/-- R198: a host that leaves out the last payload beat of ENCODE has its next header taken as payload. -/
def Obligations.MissingPayloadBeatSwallowsNextHeader : Prop :=
  ∀ (payload : List Beat) (h : Beat) (rest : List Beat) (s : State), payload.length = 31 → s.chanOpen = true →
    s.stalled = false → s.reqBuf = [] → s.reqIn = 0x0000000000000003#64 :: (payload ++ h :: rest) →
    ∃ (vs : List Int) (a b : Int), vs.length = 64 ∧ vs[62]? = some a ∧ vs[63]? = some b ∧
      a = (BitVec.ofNat 32 h.toNat).toInt ∧ b = (BitVec.ofNat 32 (h.toNat / 2 ^ 32)).toInt ∧
      step s = exec (.encode vs) { s with reqIn := rest }

/-! ### Invariants -/

/-- Every step keeps the invariant of the block, from every state that meets it. -/
def Obligations.StepKeepsTheInvariant : Prop :=
  ∀ s t : State, s.Inv → step s = .next t → t.Inv

/-- The state after reset meets the invariant, whatever NUM_TABLES in 1 to 256 and TABLE_DATA are, the reset state of this
block among them. -/
def Obligations.ResetMeetsTheInvariant : Prop :=
  State.reset.Inv ∧
  ∀ (n : Nat) (data : Nat → Nat → BitVec 32), 1 ≤ n → n ≤ 256 → (State.afterReset n data).Inv

/-- Everything that can happen to the block, the host's doings among it, keeps the invariant. -/
def Obligations.EveryEventKeepsTheInvariant : Prop :=
  ∀ (data : Nat → Nat → BitVec 32) (e : Event) (s t : State), s.Inv → Happens data e s t → t.Inv

/-- R30, R27: in every reachable state NUM_TABLES and what reset built are as reset left them, and the invariant holds. -/
def Obligations.ReachableStatesKeepConstruction : Prop :=
  ∀ (n : Nat) (data : Nat → Nat → BitVec 32) (s : State), 1 ≤ n → n ≤ 256 → Reachable n data s →
    s.numTables = n ∧ s.built = construct n data ∧ s.Inv

/-! ### The assembler -/

/-- R77: the assembler refuses exactly the requests with an operand that does not fit its field. -/
def Obligations.AssemblerRefusesOperandsThatDoNotFit : Prop :=
  (∀ v : Int, (AsmLine.request (.validate v)).assemble = none ↔ v < -2147483648 ∨ 2147483647 < v) ∧
  (∀ v : Int, (AsmLine.request (.level v)).assemble = none ↔ v < -2147483648 ∨ 2147483647 < v) ∧
  (∀ vs : List Int, (AsmLine.request (.encode vs)).assemble = none ↔
    vs.length ≠ 64 ∨ ∃ v ∈ vs, v < -2147483648 ∨ 2147483647 < v) ∧
  (∀ (q : Int) (w0 w1 w2 w3 : Beat), (AsmLine.request (.decode q w0 w1 w2 w3)).assemble = none ↔
    q < -32768 ∨ 32767 < q) ∧
  (∀ t q : Int, (AsmLine.request (.decodeset t q)).assemble = none ↔ t < -32768 ∨ 32767 < t ∨ q < -32768 ∨ 32767 < q) ∧
  (∀ t q : Int, (AsmLine.request (.score t q)).assemble = none ↔ t < -32768 ∨ 32767 < t ∨ q < -32768 ∨ 32767 < q) ∧
  (AsmLine.request .bootinfo).assemble ≠ none ∧ ∀ b : Beat, (AsmLine.beat b).assemble = some [b]

/-- R76, R78: disassembling a program's beats gives its requests back (SCORE as DECODESET), and an illegal header and its
payload beats are given back as raw beats. -/
def Obligations.DisassembleOfAssembleIsTheProgram : Prop :=
  (∀ (is : List Instr), (∀ i ∈ is, i.wellFormed = true) →
    disassemble (requestStream is) = is.map fun i => .request i.canonical) ∧
  ∀ (h : Beat) (payload rest : List Beat), (∀ r ∈ opcodeRows, h &&& r.maskBits ≠ r.matchBits) →
    payload.length = payloadLen h →
    disassemble (h :: (payload ++ rest)) = .beat h :: payload.map .beat ++ disassemble rest

/-- R75: the text printed for a line reads back as that line. -/
def Obligations.TextOfLineReadsBack : Prop :=
  (∀ i : Instr, i.wellFormed = true → readLine (AsmLine.request i).text = .line (.request i)) ∧
  ∀ b : Beat, readLine (AsmLine.beat b).text = .line (.beat b)
end

