-- ==== Sys2Proof/Laws/Codec.lean ====
section
/-! SUPPORT. The codec: what the domain check answers, where an inserted slot is found again, and what packing answers. -/

namespace Sys2Proof.Machine

theorem validate_any_eq_false_iff (v : Int) : (validate v).any = false ↔ ValidValue v := by
  simp [validate, ErrorSet.any, ValidValue, Config.valueStep, Config.vmin, Config.vmax]

theorem validate_any_eq_true_iff (v : Int) : (validate v).any = true ↔ ¬ ValidValue v := by
  rw [← validate_any_eq_false_iff]; simp

theorem level_mem_range {v : Int} (h : ValidValue v) : 0 ≤ level v ∧ level v ≤ 15 := by
  obtain ⟨h1, h2, h3⟩ := h
  simp only [level, Config.valueStep, Config.bias]
  omega

theorem lvl4_toNat {v : Int} (h : ValidValue v) : ((lvl4 v).toNat : Int) = level v := by
  have := level_mem_range h
  simp only [lvl4, BitVec.toNat_ofInt]
  omega

theorem bitOffset_eq (s : Nat) : bitOffset s = 4 * (s % 16) := rfl

theorem extract_toNat (word : Beat) (s : Nat) : (extract word s).toNat = word.toNat / 2 ^ (4 * (s % 16)) % 16 := by
  simp [extract, bitOffset_eq, Nat.shiftRight_eq_div_pow]

/-- A bit of a slot is that bit of the word. -/
theorem extract_getLsbD (word : Beat) (s i : Nat) :
    (extract word s).getLsbD i = (decide (i < 4) && word.getLsbD (4 * (s % 16) + i)) := by
  simp [extract, bitOffset_eq]

/-- Insertion ors the field into its own slot and leaves every other slot alone. -/
theorem extract_insertSlot (word : Beat) (s t : Nat) (f : BitVec 4) :
    extract (insertSlot word s f) t = if t % 16 = s % 16 then extract word t ||| f else extract word t := by
  apply BitVec.eq_of_getLsbD_eq
  intro i hi
  have key : (extract (insertSlot word s f) t).getLsbD i = ((extract word t).getLsbD i ||
      (decide (4 * (s % 16) ≤ 4 * (t % 16) + i) && f.getLsbD (4 * (t % 16) + i - 4 * (s % 16)))) := by
    rw [extract_getLsbD, extract_getLsbD, insertSlot, bitOffset_eq, BitVec.getLsbD_or, BitVec.getLsbD_shiftLeft,
      BitVec.getLsbD_setWidth]
    simp only [hi, decide_true, Bool.true_and, show 4 * (t % 16) + i < 64 by omega,
      show 4 * (t % 16) + i - 4 * (s % 16) < 64 by omega]
    by_cases h : 4 * (s % 16) ≤ 4 * (t % 16) + i
    · simp [h, show ¬ 4 * (t % 16) + i < 4 * (s % 16) by omega]
    · simp [h, show 4 * (t % 16) + i < 4 * (s % 16) by omega]
  rw [key]
  split_ifs with h
  · rw [BitVec.getLsbD_or, h]
    simp
  · rcases Nat.lt_or_gt_of_ne h with h | h
    · simp [show ¬ 4 * (s % 16) ≤ 4 * (t % 16) + i by omega]
    · rw [BitVec.getLsbD_of_ge f _ (by omega)]
      simp

theorem get_orSlot (w : Words) {s : Nat} (hs : s < 64) (f : BitVec 4) (i : Fin 4) :
    (w.orSlot s f).get i = if i.val = s / 16 then insertSlot (w.get i) s f else w.get i := by
  have h : s / 16 = 0 ∨ s / 16 = 1 ∨ s / 16 = 2 ∨ s / 16 = 3 := by omega
  rcases h with h | h | h | h <;> fin_cases i <;> simp [Words.orSlot, Words.get, h]

/-- The slot of square `t` in the table's four words. -/
def slotAt (w : Words) (t : Fin 64) : BitVec 4 := extract (w.get (wordIndex t)) t

theorem slotAt_orSlot (w : Words) {s : Nat} (hs : s < 64) (f : BitVec 4) (t : Fin 64) :
    slotAt (w.orSlot s f) t = if t.val = s then slotAt w t ||| f else slotAt w t := by
  simp only [slotAt, get_orSlot w hs, wordIndex]
  by_cases h : t.val / 16 = s / 16
  · rw [if_pos h, extract_insertSlot]
    by_cases h' : t.val % 16 = s % 16
    · rw [if_pos h', if_pos (by omega)]
    · rw [if_neg h', if_neg (by omega)]
  · rw [if_neg h, if_neg (by intro e; exact h (by rw [e]))]

theorem slotAt_zero (t : Fin 64) : slotAt Words.zero t = 0 := by
  have : ∀ i, Words.zero.get i = 0 := by decide
  simp [slotAt, this, extract]

/-- Packing from square `s` on, over words whose slots from `s` on are zero. Either every value is valid, and each square
from `s` on holds its level while the earlier ones are as they were; or the first invalid value is reported with its
square. -/
theorem packFrom_cases (vs : List Int) : ∀ (s : Nat) (w : Words), s + vs.length ≤ 64 →
    (∀ t : Fin 64, s ≤ t.val → slotAt w t = 0) →
    (∃ w', packFrom vs s w = .words w' ∧ (∀ v ∈ vs, ValidValue v) ∧
      (∀ t : Fin 64, t.val < s → slotAt w' t = slotAt w t) ∧
      ∀ t : Fin 64, ∀ v, s ≤ t.val → vs[t.val - s]? = some v → slotAt w' t = lvl4 v) ∨
    ∃ q v, vs[q]? = some v ∧ ¬ ValidValue v ∧ (∀ q' v', q' < q → vs[q']? = some v' → ValidValue v') ∧
      packFrom vs s w = .failure (validate v) (s + q) v := by
  induction vs with
  | nil => intro s w _ _; exact .inl ⟨w, rfl, by simp, fun _ _ => rfl, by simp⟩
  | cons v rest ih =>
    intro s w hlen hzero
    simp only [List.length_cons] at hlen
    by_cases hv : (validate v).any = true
    · exact .inr ⟨0, v, rfl, (validate_any_eq_true_iff v).1 hv, by simp, by simp [packFrom, hv]⟩
    · have hv' := (validate_any_eq_false_iff v).1 (by simpa using hv)
      have step : packFrom (v :: rest) s w = packFrom rest (s + 1) (w.orSlot s (lvl4 v)) := by simp [packFrom, hv]
      have hs : s < 64 := by omega
      have hz : ∀ t : Fin 64, s + 1 ≤ t.val → slotAt (w.orSlot s (lvl4 v)) t = 0 := by
        intro t ht
        rw [slotAt_orSlot w hs, if_neg (by omega)]
        exact hzero t (by omega)
      rcases ih (s + 1) (w.orSlot s (lvl4 v)) (by omega) hz with ⟨w', h1, h2, h3, h4⟩ | ⟨q, x, h1, h2, h3, h4⟩
      · refine .inl ⟨w', by rw [step, h1], by simpa using ⟨hv', h2⟩, ?_, ?_⟩
        · intro t ht
          rw [h3 t (by omega), slotAt_orSlot w hs, if_neg (by omega)]
        · intro t x ht hx
          by_cases e : t.val = s
          · rw [h3 t (by omega), slotAt_orSlot w hs, if_pos e, hzero t (by omega)]
            have : x = v := by simpa [e] using hx.symm
            simp [this]
          · refine h4 t x (by omega) ?_
            rwa [show t.val - s = t.val - (s + 1) + 1 by omega, List.getElem?_cons_succ] at hx
      · refine .inr ⟨q + 1, x, by simpa using h1, h2, ?_, by rw [step, h4]; congr 1; omega⟩
        intro q' v' hq' hv''
        cases q' with
        | zero => simpa using (by simpa using hv'' : v = v') ▸ hv'
        | succ q' => exact h3 q' v' (by omega) (by simpa using hv'')

/-- Packing 64 values: either all are valid and each square's slot holds its level, or the first invalid one is
reported. -/
theorem pack_cases {vs : List Int} (h : vs.length = 64) :
    (∃ w, pack vs = .words w ∧ (∀ v ∈ vs, ValidValue v) ∧
      ∀ t : Fin 64, ∀ v, vs[t.val]? = some v → slotAt w t = lvl4 v) ∨
    ∃ q v, q < 64 ∧ vs[q]? = some v ∧ ¬ ValidValue v ∧ (∀ q' v', q' < q → vs[q']? = some v' → ValidValue v') ∧
      pack vs = .failure (validate v) q v := by
  rcases packFrom_cases vs 0 Words.zero (by omega) (fun t _ => slotAt_zero t) with
    ⟨w, h1, h2, _, h4⟩ | ⟨q, v, h1, h2, h3, h4⟩
  · exact .inl ⟨w, h1, h2, fun t v hv => h4 t v (Nat.zero_le _) (by simpa using hv)⟩
  · refine .inr ⟨q, v, ?_, h1, h2, h3, by simpa [pack] using h4⟩
    have := (List.getElem?_eq_some_iff.1 h1).1
    omega

theorem tableValues_length (data k) : (tableValues data k).length = 64 := by simp [tableValues, Config.squares]

theorem tableValues_getElem? (data k) {q : Nat} (h : q < 64) : (tableValues data k)[q]? = some (data k q).toInt := by
  simp [tableValues, Config.squares, List.getElem?_range h]

end Sys2Proof.Machine
end

