-- ==== Sys2Proof/Laws/Config.lean ====
section
/-! SUPPORT. Static facts of the fixed constants (spec/00_scope.md R6 to R9). -/

namespace Sys2Proof.Config

/-- The levels fit a slot (R8): no level is lost in 4 bits. -/
theorem levels_fit_slot : (vmax - vmin) / valueStep + 1 = levels ∧ levels ≤ 2 ^ slotBits := by decide

/-- The bias puts the smallest Value at level 0 (R8). -/
theorem bias_eq : bias = -vmin / valueStep := by decide

/-- 16 slots of 4 bits fill a word of 64 bits, and four words hold a table (R7, spec/20_memory.md R45). -/
theorem slots_fill_word : slotsPerWord * slotBits = 64 ∧ wordsPerTable * slotsPerWord = squares := by decide

/-- The number of tables is in the spec's range (R9). -/
theorem numTables_range : 1 ≤ numTables ∧ numTables ≤ 256 := by decide

/-- Every table name has a table id of this block (R9). -/
theorem tableId_lt (t : TableName) : t.tableId < numTables := by cases t <;> decide

/-- The one entry of TABLE_DATA that the spec fixes (R10). -/
theorem tableData_zero_eleven : tableData 0 11 = 20#32 := rfl

end Sys2Proof.Config
end

