-- ==== Sys2Proof/Laws/Memory.lean ====
section
/-! SUPPORT. STORE: a read after a write, and that every operation keeps the canonical form and the range. -/

namespace Sys2Proof.Machine.Memory

theorem wfFrom_mono {lo hi : Nat} (h : lo ≤ hi) {m : Memory} (hm : wfFrom hi m = true) : wfFrom lo m = true := by
  cases m with
  | nil => rfl
  | cons c rest => simp [wfFrom] at hm ⊢; exact ⟨⟨by omega, hm.1.2⟩, hm.2⟩

/-- A word below every listed index reads as the blank word. -/
theorem read_below {m : Memory} {lo w : Nat} (hm : wfFrom lo m = true) (h : w < lo) : read m w = blank := by
  induction m generalizing lo with
  | nil => rfl
  | cons c rest ih =>
    simp [wfFrom] at hm
    rw [read, if_neg (by omega)]
    exact ih hm.2 (by omega)

theorem write_before {a w : Nat} (h : w < a) (x v : Beat) (rest : Memory) :
    write ((a, x) :: rest) w v = if v = blank then (a, x) :: rest else (w, v) :: (a, x) :: rest := by
  simp [write, h]

theorem write_here (a : Nat) (x v : Beat) (rest : Memory) :
    write ((a, x) :: rest) a v = if v = blank then rest else (a, v) :: rest := by
  simp [write]

theorem write_after {a w : Nat} (h : a < w) (x v : Beat) (rest : Memory) :
    write ((a, x) :: rest) w v = (a, x) :: write rest w v := by
  simp [write, show ¬ w < a by omega, show ¬ w = a by omega]

/-- A write reads back at its own index and leaves every other index alone. -/
theorem read_write {m : Memory} {lo : Nat} (hm : wfFrom lo m = true) (w v a) :
    read (write m w v) a = if a = w then v else read m a := by
  induction m generalizing lo with
  | nil => by_cases hv : v = blank <;> simp [write, read, hv, eq_comm]
  | cons c rest ih =>
    obtain ⟨x, y⟩ := c
    simp [wfFrom] at hm
    have below : ∀ i, i ≤ x → read rest i = blank := fun i hi => read_below hm.2 (by omega)
    rcases Nat.lt_trichotomy w x with h | rfl | h
    · rw [write_before h]
      by_cases hv : v = blank <;> by_cases ha : a = w
      · simp [hv, ha, read, below w (by omega), show ¬ x = w by omega]
      · simp [hv, ha]
      · simp [hv, ha, read]
      · simp [hv, ha, read, Ne.symm ha]
    · rw [write_here]
      by_cases hv : v = blank <;> by_cases ha : a = w
      · simp [hv, ha, below w le_rfl]
      · simp [hv, ha, read, Ne.symm ha]
      · simp [hv, ha, read]
      · simp [hv, ha, read, Ne.symm ha]
    · rw [write_after h, read, read, ih hm.2]
      by_cases hx : x = a
      · simp [hx, show ¬ a = w by omega]
      · simp [hx]

theorem wfFrom_write {m : Memory} {lo : Nat} (hm : wfFrom lo m = true) {w : Nat} (h : lo ≤ w) (v) :
    wfFrom lo (write m w v) = true := by
  induction m generalizing lo with
  | nil => by_cases hv : v = blank <;> simp [write, wfFrom, hv, h]
  | cons c rest ih =>
    obtain ⟨x, y⟩ := c
    simp [wfFrom] at hm
    rcases Nat.lt_trichotomy w x with hx | rfl | hx
    · rw [write_before hx]
      by_cases hv : v = blank
      · simp [hv, wfFrom, hm]
      · simp [hv, wfFrom, hm, h]; omega
    · rw [write_here]
      by_cases hv : v = blank
      · simpa [hv] using wfFrom_mono (by omega) hm.2
      · simp [hv, wfFrom, hm.2, h]
    · rw [write_after hx]
      simp [wfFrom, hm.1]
      exact ih hm.2 (by omega)

/-- A write keeps the canonical form. -/
theorem wf_write {m : Memory} (hm : m.wf = true) (w v) : (m.write w v).wf = true :=
  wfFrom_write hm (Nat.zero_le w) v

/-- A write inside STORE lists no index outside it. -/
theorem within_write {n : Nat} {m : Memory} (hm : m.within n = true) {w : Nat} (h : w < 4 * n) (v) :
    (m.write w v).within n = true := by
  induction m with
  | nil => by_cases hv : v = blank <;> simp [write, within, hv, h]
  | cons c rest ih =>
    obtain ⟨x, y⟩ := c
    have hx : x < 4 * n := by simp [within] at hm; exact hm.1
    have hr : within n rest = true := by simp [within] at hm ⊢; exact hm.2
    have key : ∀ (c : Nat × Beat) m', within n (c :: m') = (decide (c.1 < 4 * n) && within n m') := fun _ _ => rfl
    rcases Nat.lt_trichotomy w x with hw | rfl | hw
    · rw [write_before hw]
      by_cases hv : v = blank <;> simp [hv, key, hx, hr, h]
    · rw [write_here]
      by_cases hv : v = blank <;> simp [hv, key, hr, h]
    · rw [write_after hw, key, ih hr]
      simp [hx]

theorem wf_writeTable {m : Memory} (hm : m.wf = true) (k w) : (m.writeTable k w).wf = true :=
  wf_write (wf_write (wf_write (wf_write hm _ _) _ _) _ _) _ _

theorem within_writeTable {n : Nat} {m : Memory} (hm : m.within n = true) {k : Nat} (h : k < n) (w) :
    (m.writeTable k w).within n = true :=
  within_write (within_write (within_write (within_write hm (by omega) _) (by omega) _) (by omega) _) (by omega) _

/-- Table `k`'s words are at 4k to 4k+3, and every other word is as it was. -/
theorem read_writeTable {m : Memory} (hm : m.wf = true) (k w a) :
    (m.writeTable k w).read a =
      if a = 4 * k + 3 then w.w3 else if a = 4 * k + 2 then w.w2 else if a = 4 * k + 1 then w.w1
      else if a = 4 * k then w.w0 else m.read a := by
  have h0 := wf_write hm (4 * k) w.w0
  have h1 := wf_write h0 (4 * k + 1) w.w1
  have h2 := wf_write h1 (4 * k + 2) w.w2
  rw [writeTable, read_write h2, read_write h1, read_write h0, read_write hm]

theorem wf_zeroBelow {m : Memory} (hm : m.wf = true) (n) : (m.zeroBelow n).wf = true := by
  induction n with
  | zero => exact hm
  | succ n ih => exact wf_write ih _ _

theorem read_zeroBelow {m : Memory} (hm : m.wf = true) (n a) :
    (m.zeroBelow n).read a = if a < n then 0 else m.read a := by
  induction n with
  | zero => rfl
  | succ n ih =>
    rw [zeroBelow, read_write (wf_zeroBelow hm n), ih]
    by_cases h : a = n
    · simp [h]
    · simp [h, show a < n + 1 ↔ a < n by omega]

/-- A memory in canonical form in which every word reads as blank lists nothing. -/
theorem eq_nil_of_read_blank {m : Memory} (hm : m.wf = true) (h : ∀ a, m.read a = blank) : m = [] := by
  cases m with
  | nil => rfl
  | cons c rest =>
    have := h c.1
    simp [wf, wfFrom] at hm
    simp [read] at this
    exact absurd this hm.1

/-- Where a memory lists nothing of 4n or more, zeroing every word of STORE leaves nothing listed. -/
theorem zeroBelow_eq_nil {n : Nat} {m : Memory} (hm : m.wf = true) (hw : m.within n = true) :
    m.zeroBelow (4 * n) = [] := by
  refine eq_nil_of_read_blank (wf_zeroBelow hm _) fun a => ?_
  rw [read_zeroBelow hm]
  split_ifs with h
  · rfl
  · clear hm
    induction m with
    | nil => rfl
    | cons c rest ih =>
      simp [within] at hw
      rw [read, if_neg (by omega)]
      exact ih (by simpa [within] using hw.2)

end Sys2Proof.Machine.Memory
end

