-- ==== Sys2Proof/Laws/Construct.lean ====
section
/-! SUPPORT. Construction: it either packs every table, or stops at the first invalid entry and zeroes STORE. -/

namespace Sys2Proof.Machine

/-- The slot of square `q` of table `k` in a memory. -/
def storeSlot (m : Memory) (k : Nat) (q : Fin 64) : BitVec 4 := extract (m.read (4 * k + q.val / 16)) q

theorem read_writeTable_own {m : Memory} (hm : m.wf = true) (k : Nat) (w : Words) (q : Fin 64) :
    (m.writeTable k w).read (4 * k + q.val / 16) = w.get (wordIndex q) := by
  rw [Memory.read_writeTable hm]
  have h : q.val / 16 = 0 ∨ q.val / 16 = 1 ∨ q.val / 16 = 2 ∨ q.val / 16 = 3 := by omega
  have hw : wordIndex q = ⟨q.val / 16, by omega⟩ := rfl
  rcases h with h | h | h | h <;> simp [hw, h, Words.get]

theorem read_writeTable_other {m : Memory} (hm : m.wf = true) {k k' : Nat} (h : k' ≠ k) (w : Words) (q : Fin 64) :
    (m.writeTable k w).read (4 * k' + q.val / 16) = m.read (4 * k' + q.val / 16) := by
  rw [Memory.read_writeTable hm, if_neg (by omega), if_neg (by omega), if_neg (by omega), if_neg (by omega)]

/-- Construction from table `k` on, over a STORE that is canonical and within the block's. -/
theorem constructFrom_cases (n : Nat) (data) : ∀ (left k : Nat) (m : Memory), k + left = n → m.wf = true →
    m.within n = true →
    (∃ m', constructFrom n data left k m = Built.success m' ∧ m'.wf = true ∧ m'.within n = true ∧
      (∀ k' q, k ≤ k' → k' < n → q < 64 → ValidValue (data k' q).toInt) ∧
      (∀ k' q, k' < k → storeSlot m' k' q = storeSlot m k' q) ∧
      ∀ k' (q : Fin 64), k ≤ k' → k' < n → storeSlot m' k' q = lvl4 (data k' q).toInt) ∨
    ∃ k' q m', k ≤ k' ∧ k' < n ∧ q < 64 ∧ ¬ ValidValue (data k' q).toInt ∧
      (∀ a b, k ≤ a → b < 64 → (a < k' ∨ (a = k' ∧ b < q)) → ValidValue (data a b).toInt) ∧
      m'.wf = true ∧ m'.within n = true ∧
      constructFrom n data left k m = Built.failure n m' (validate (data k' q).toInt) k' q (data k' q).toInt := by
  intro left
  induction left with
  | zero =>
    intro k m hk hm hw
    exact .inl ⟨m, rfl, hm, hw, fun _ _ _ _ => by omega, fun _ _ _ => rfl, fun _ _ _ _ => by omega⟩
  | succ left ih =>
    intro k m hk hm hw
    have hkn : k < n := by omega
    rcases pack_cases (tableValues_length data k) with ⟨w, h1, h2, h3⟩ | ⟨q, v, hq, h1, h2, h3, h4⟩
    · have valid : ∀ q, q < 64 → ValidValue (data k q).toInt := fun q hq =>
        h2 _ (List.mem_of_getElem? (tableValues_getElem? data k hq))
      have step : constructFrom n data (left + 1) k m = constructFrom n data left (k + 1) (m.writeTable k w) := by
        simp [constructFrom, h1]
      rcases ih (k + 1) (m.writeTable k w) (by omega) (Memory.wf_writeTable hm k w)
          (Memory.within_writeTable hw hkn w) with
        ⟨m', g1, g2, g3, g4, g5, g6⟩ | ⟨k', q, m', g1, g2, g3, g4, g5, g6, g7, g8⟩
      · refine .inl ⟨m', by rw [step, g1], g2, g3, ?_, ?_, ?_⟩
        · intro k' q a b c
          by_cases e : k' = k
          · exact e ▸ valid q c
          · exact g4 k' q (by omega) b c
        · intro k' q a
          rw [g5 k' q (by omega), storeSlot, read_writeTable_other hm (by omega), storeSlot]
        · intro k' q a b
          by_cases e : k' = k
          · subst e
            rw [g5 k' q (by omega), storeSlot, read_writeTable_own hm]
            exact h3 q _ (tableValues_getElem? data k' q.isLt)
          · exact g6 k' q (by omega) b
      · refine .inr ⟨k', q, m', by omega, g2, g3, g4, ?_, g6, g7, by rw [step, g8]⟩
        intro a b ha hb hab
        by_cases e : a = k
        · exact e ▸ valid b hb
        · exact g5 a b (by omega) hb hab
    · have hv : v = (data k q).toInt := by
        rw [tableValues_getElem? data k hq] at h1
        exact (Option.some.inj h1).symm
      subst hv
      refine .inr ⟨k, q, m, le_rfl, hkn, hq, h2, ?_, hm, hw, by simp [constructFrom, h4]⟩
      intro a b ha hb hab
      have e : a = k := by omega
      exact h3 b _ (by omega) (e ▸ tableValues_getElem? data a hb)

/-- Construction of a whole block. -/
theorem construct_cases (n : Nat) (data) :
    (∃ m, construct n data = Built.success m ∧ m.wf = true ∧ m.within n = true ∧ AllValid n data ∧
      ∀ k (q : Fin 64), k < n → storeSlot m k q = lvl4 (data k q).toInt) ∨
    ∃ k q, FirstInvalid n data k q ∧
      construct n data =
        { ready := false, failed := true, bootInv := (validate (data k q).toInt).inv,
          bootOor := (validate (data k q).toInt).oor, bootTable := BitVec.ofNat 8 k, bootSquare := BitVec.ofNat 6 q,
          bootValue := data k q, store := [] } := by
  rcases constructFrom_cases n data n 0 [] (by omega) rfl rfl with
    ⟨m, h1, h2, h3, h4, _, h6⟩ | ⟨k, q, m, _, h2, h3, h4, h5, h6, h7, h8⟩
  · exact .inl ⟨m, h1, h2, h3, fun k q a b => h4 k q (Nat.zero_le _) a b, fun k q a => h6 k q (Nat.zero_le _) a⟩
  · refine .inr ⟨k, q, ⟨h2, h3, h4, fun a b hb hab => h5 a b (Nat.zero_le _) hb hab⟩, ?_⟩
    rw [construct, h8, Built.failure, Memory.zeroBelow_eq_nil h6 h7, BitVec.ofInt_toInt]

end Sys2Proof.Machine
end

