-- ==== Sys2Proof/Laws/Operands.lean ====
section
/-! SUPPORT. The fields of a header that was laid out by a format read back as they were laid out. -/

namespace Sys2Proof.Machine

theorem fitsField_iff (n : Nat) (i : Int) : fitsField n i = true ↔ -(2 ^ (n - 1) : Int) ≤ i ∧ i < (2 ^ (n - 1) : Int) := by
  simp [fitsField]

theorem toInt_bits32 {i : Int} (h : fitsField 32 i = true) : (bits32 i).toInt = i := by
  rw [fitsField_iff] at h
  rw [bits32, BitVec.toInt_ofInt]
  exact Int.bmod_eq_of_le (by omega) (by omega)

theorem toInt_bits16 {i : Int} (h : fitsField 16 i = true) : (bits16 i).toInt = i := by
  rw [fitsField_iff] at h
  rw [bits16, BitVec.toInt_ofInt]
  exact Int.bmod_eq_of_le (by omega) (by omega)

theorem fitsField_toInt32 (b : BitVec 32) : fitsField 32 b.toInt = true := by
  rw [fitsField_iff]
  exact ⟨by simpa using b.le_toInt, by simpa using b.toInt_lt⟩

theorem fitsField_toInt16 (b : BitVec 16) : fitsField 16 b.toInt = true := by
  rw [fitsField_iff]
  exact ⟨by simpa using b.le_toInt, by simpa using b.toInt_lt⟩

/-- Concatenation places the first word above the second (R12). -/
theorem append_toNat {n m : Nat} (x : BitVec n) (y : BitVec m) : (x ++ y).toNat = x.toNat * 2 ^ m + y.toNat := by
  rw [BitVec.toNat_append, Nat.shiftLeft_eq, mul_comm, ← Nat.two_pow_add_eq_or_of_lt y.isLt]

theorem headerN_toNat (o : BitVec 4) : (headerN o).toNat = o.toNat := by
  rw [headerN, append_toNat]; simp

theorem headerV_toNat (o : BitVec 4) (v) : (headerV o v).toNat = (bits32 v).toNat * 2 ^ 32 + o.toNat := by
  rw [headerV, append_toNat, append_toNat]; simp only [BitVec.toNat_ofNat]; omega

theorem headerS_toNat (o : BitVec 4) (q) : (headerS o q).toNat = (bits16 q).toNat * 2 ^ 32 + o.toNat := by
  rw [headerS, append_toNat, append_toNat, append_toNat]; simp only [BitVec.toNat_ofNat]; omega

theorem headerTS_toNat (o : BitVec 4) (t q) :
    (headerTS o t q).toNat = (bits16 t).toNat * 2 ^ 48 + (bits16 q).toNat * 2 ^ 32 + o.toNat := by
  rw [headerTS, append_toNat, append_toNat, append_toNat]; simp only [BitVec.toNat_ofNat]; omega

/-- The field of `n` bits from bit `k` up, as a number (R12). -/
theorem field_toNat (h : Beat) (k n : Nat) : (h.extractLsb' k n).toNat = h.toNat / 2 ^ k % 2 ^ n := by
  simp [Nat.shiftRight_eq_div_pow]

theorem headerOpc_eq_iff (h : Beat) (o : BitVec 4) : headerOpc h = o ↔ h.toNat % 16 = o.toNat := by
  rw [headerOpc, ← BitVec.toNat_inj, field_toNat]; simp

theorem lowBitsZero_iff (h : Beat) : lowBitsZero h = true ↔ h.toNat / 16 % 2 ^ 28 = 0 := by
  rw [lowBitsZero, beq_iff_eq, ← BitVec.toNat_inj, field_toNat]; simp

theorem topBitsZero_iff (h : Beat) : topBitsZero h = true ↔ h.toNat / 2 ^ 48 = 0 := by
  rw [topBitsZero, beq_iff_eq, ← BitVec.toNat_inj, field_toNat]
  simp only [BitVec.toNat_ofNat]; omega

theorem upperBitsZero_iff (h : Beat) : upperBitsZero h = true ↔ h.toNat / 16 = 0 := by
  rw [upperBitsZero, beq_iff_eq, ← BitVec.toNat_inj, field_toNat]
  simp only [BitVec.toNat_ofNat]; omega

@[simp] theorem headerOpc_headerN (o : BitVec 4) : headerOpc (headerN o) = o := by
  rw [headerOpc_eq_iff, headerN_toNat]; omega

@[simp] theorem headerOpc_headerV (o : BitVec 4) (v) : headerOpc (headerV o v) = o := by
  rw [headerOpc_eq_iff, headerV_toNat]; omega

@[simp] theorem headerOpc_headerS (o : BitVec 4) (q) : headerOpc (headerS o q) = o := by
  rw [headerOpc_eq_iff, headerS_toNat]; omega

@[simp] theorem headerOpc_headerTS (o : BitVec 4) (t q) : headerOpc (headerTS o t q) = o := by
  rw [headerOpc_eq_iff, headerTS_toNat]; omega

@[simp] theorem upperBitsZero_headerN (o : BitVec 4) : upperBitsZero (headerN o) = true := by
  rw [upperBitsZero_iff, headerN_toNat]; omega

@[simp] theorem lowBitsZero_headerV (o : BitVec 4) (v) : lowBitsZero (headerV o v) = true := by
  rw [lowBitsZero_iff, headerV_toNat]; omega

@[simp] theorem lowBitsZero_headerS (o : BitVec 4) (q) : lowBitsZero (headerS o q) = true := by
  rw [lowBitsZero_iff, headerS_toNat]; omega

@[simp] theorem topBitsZero_headerS (o : BitVec 4) (q) : topBitsZero (headerS o q) = true := by
  rw [topBitsZero_iff, headerS_toNat]; omega

@[simp] theorem lowBitsZero_headerTS (o : BitVec 4) (t q) : lowBitsZero (headerTS o t q) = true := by
  rw [lowBitsZero_iff, headerTS_toNat]; omega

theorem headerValue_headerV (o : BitVec 4) {v} (h : fitsField 32 v = true) : headerValue (headerV o v) = v := by
  have : (headerV o v).extractLsb' 32 32 = bits32 v := by
    rw [← BitVec.toNat_inj, field_toNat, headerV_toNat]; omega
  rw [headerValue, this, toInt_bits32 h]

theorem headerSquare_headerS (o : BitVec 4) {q} (h : fitsField 16 q = true) : headerSquare (headerS o q) = q := by
  have : (headerS o q).extractLsb' 32 16 = bits16 q := by
    rw [← BitVec.toNat_inj, field_toNat, headerS_toNat]; omega
  rw [headerSquare, this, toInt_bits16 h]

theorem headerSquare_headerTS (o : BitVec 4) (t) {q} (h : fitsField 16 q = true) :
    headerSquare (headerTS o t q) = q := by
  have : (headerTS o t q).extractLsb' 32 16 = bits16 q := by
    rw [← BitVec.toNat_inj, field_toNat, headerTS_toNat]; omega
  rw [headerSquare, this, toInt_bits16 h]

theorem headerTable_headerTS (o : BitVec 4) {t} (q) (h : fitsField 16 t = true) :
    headerTable (headerTS o t q) = t := by
  have : (headerTS o t q).extractLsb' 48 16 = bits16 t := by
    rw [← BitVec.toNat_inj, field_toNat, headerTS_toNat]; omega
  rw [headerTable, this, toInt_bits16 h]

theorem valueBeats_length : ∀ vs : List Int, (valueBeats vs).length = vs.length / 2
  | [] => rfl
  | [_] => by simp [valueBeats]
  | _ :: _ :: rest => by simp only [valueBeats, List.length_cons, valueBeats_length rest]; omega

end Sys2Proof.Machine
end

