-- ==== Sys2Proof/Laws/PerInstr.lean ====
section
/-! SUPPORT. Statements about every command as a request, one lemma for each constructor of Instr. -/

namespace Sys2Proof.Laws.RequestLength

open Sys2Proof.Machine

/-- A well-formed command is a header and exactly as many payload beats as its opcode takes (spec/30_encoding.md R60,
R65). -/
def Statement (i : Instr) : Prop :=
  i.wellFormed = true → ∃ h tail, encode i = h :: tail ∧ tail.length = payloadLen h

theorem validate (v : Int) : Statement (.validate v) := fun _ => ⟨_, [], rfl, by simp [payloadLen]⟩

theorem level (v : Int) : Statement (.level v) := fun _ => ⟨_, [], rfl, by simp [payloadLen]⟩

theorem encode (vs : List Int) : Statement (.encode vs) := fun h =>
  ⟨_, valueBeats vs, rfl, by
    have : vs.length = 64 := by simp [Instr.wellFormed] at h; exact h.1
    simp [payloadLen, valueBeats_length, this]⟩

theorem decode (q : Int) (w0 w1 w2 w3 : Beat) : Statement (.decode q w0 w1 w2 w3) := fun _ =>
  ⟨_, [w0, w1, w2, w3], rfl, by simp [payloadLen]⟩

theorem decodeset (t q : Int) : Statement (.decodeset t q) := fun _ => ⟨_, [], rfl, by simp [payloadLen]⟩

theorem score (t q : Int) : Statement (.score t q) := fun _ => ⟨_, [], rfl, by simp [payloadLen]⟩

theorem bootinfo : Statement .bootinfo := fun _ => ⟨_, [], rfl, by simp [payloadLen]⟩

end Sys2Proof.Laws.RequestLength
end

