-- ==== Sys2Proof/Laws/State.lean ====
section
/-! SUPPORT. One lemma for each field after each update of the state, so that no proof unfolds a record update. -/

namespace Sys2Proof.Machine

variable (s : State) (r : Response) (rest : List Beat) (b : Beat) (n : Nat) (data : Nat → Nat → BitVec 32)

@[simp] theorem respond_numTables : (s.respond r).numTables = s.numTables := rfl
@[simp] theorem respond_reqBuf : (s.respond r).reqBuf = s.reqBuf := rfl
@[simp] theorem respond_reqIn : (s.respond r).reqIn = s.reqIn := rfl
@[simp] theorem respond_respOut : (s.respond r).respOut = s.respOut ++ r.beats s.built := rfl
@[simp] theorem respond_chanOpen : (s.respond r).chanOpen = s.chanOpen := rfl
@[simp] theorem respond_stalled : (s.respond r).stalled = s.stalled := rfl
@[simp] theorem respond_built : (s.respond r).built = s.built := rfl

@[simp] theorem advance_numTables : (s.advance rest).numTables = s.numTables := rfl
@[simp] theorem advance_reqBuf : (s.advance rest).reqBuf = [] := rfl
@[simp] theorem advance_reqIn : (s.advance rest).reqIn = rest := rfl
@[simp] theorem advance_respOut : (s.advance rest).respOut = s.respOut := rfl
@[simp] theorem advance_chanOpen : (s.advance rest).chanOpen = s.chanOpen := rfl
@[simp] theorem advance_stalled : (s.advance rest).stalled = s.stalled := rfl
@[simp] theorem advance_built : (s.advance rest).built = s.built := rfl

@[simp] theorem await_numTables : s.await.numTables = s.numTables := rfl
@[simp] theorem await_reqBuf : s.await.reqBuf = s.reqBuf ++ s.reqIn := rfl
@[simp] theorem await_reqIn : s.await.reqIn = [] := rfl
@[simp] theorem await_respOut : s.await.respOut = s.respOut := rfl
@[simp] theorem await_chanOpen : s.await.chanOpen = s.chanOpen := rfl
@[simp] theorem await_stalled : s.await.stalled = s.stalled := rfl
@[simp] theorem await_built : s.await.built = s.built := rfl

@[simp] theorem sendBeat_numTables : (s.sendBeat b).numTables = s.numTables := by unfold State.sendBeat; split <;> rfl
@[simp] theorem sendBeat_reqBuf : (s.sendBeat b).reqBuf = s.reqBuf := by unfold State.sendBeat; split <;> rfl
@[simp] theorem sendBeat_respOut : (s.sendBeat b).respOut = s.respOut := by unfold State.sendBeat; split <;> rfl
@[simp] theorem sendBeat_chanOpen : (s.sendBeat b).chanOpen = s.chanOpen := by unfold State.sendBeat; split <;> rfl
@[simp] theorem sendBeat_stalled : (s.sendBeat b).stalled = s.stalled := by unfold State.sendBeat; split <;> rfl
@[simp] theorem sendBeat_built : (s.sendBeat b).built = s.built := by unfold State.sendBeat; split <;> rfl

theorem sendBeat_reqIn_of_open (h : s.chanOpen = true) : (s.sendBeat b).reqIn = s.reqIn ++ [b] := by
  simp [State.sendBeat, h]

theorem sendBeat_of_closed (h : s.chanOpen = false) : s.sendBeat b = s := by
  simp [State.sendBeat, h]

@[simp] theorem takeBeat_numTables : s.takeBeat.numTables = s.numTables := rfl
@[simp] theorem takeBeat_reqBuf : s.takeBeat.reqBuf = s.reqBuf := rfl
@[simp] theorem takeBeat_reqIn : s.takeBeat.reqIn = s.reqIn := rfl
@[simp] theorem takeBeat_respOut : s.takeBeat.respOut = s.respOut.drop 1 := rfl
@[simp] theorem takeBeat_chanOpen : s.takeBeat.chanOpen = s.chanOpen := rfl
@[simp] theorem takeBeat_stalled : s.takeBeat.stalled = (s.stalled && !(s.respOut.drop 1).isEmpty) := rfl
@[simp] theorem takeBeat_built : s.takeBeat.built = s.built := rfl

@[simp] theorem resume_numTables : s.resume.numTables = s.numTables := rfl
@[simp] theorem resume_reqBuf : s.resume.reqBuf = s.reqBuf := rfl
@[simp] theorem resume_reqIn : s.resume.reqIn = s.reqIn := rfl
@[simp] theorem resume_respOut : s.resume.respOut = s.respOut := rfl
@[simp] theorem resume_chanOpen : s.resume.chanOpen = s.chanOpen := rfl
@[simp] theorem resume_stalled : s.resume.stalled = false := rfl
@[simp] theorem resume_built : s.resume.built = s.built := rfl

@[simp] theorem stall_numTables : s.stall.numTables = s.numTables := by unfold State.stall; split <;> rfl
@[simp] theorem stall_reqBuf : s.stall.reqBuf = s.reqBuf := by unfold State.stall; split <;> rfl
@[simp] theorem stall_reqIn : s.stall.reqIn = s.reqIn := by unfold State.stall; split <;> rfl
@[simp] theorem stall_respOut : s.stall.respOut = s.respOut := by unfold State.stall; split <;> rfl
@[simp] theorem stall_chanOpen : s.stall.chanOpen = s.chanOpen := by unfold State.stall; split <;> rfl
@[simp] theorem stall_built : s.stall.built = s.built := by unfold State.stall; split <;> rfl

theorem stall_stalled_of_pending (h : s.respOut ≠ []) : s.stall.stalled = true := by simp [State.stall, h]

theorem stall_of_taken (h : s.respOut = []) : s.stall = s := by simp [State.stall, h]

@[simp] theorem resetBegin_numTables : s.resetBegin.numTables = s.numTables := rfl
@[simp] theorem resetBegin_reqBuf : s.resetBegin.reqBuf = [] := rfl
@[simp] theorem resetBegin_reqIn : s.resetBegin.reqIn = [] := rfl
@[simp] theorem resetBegin_respOut : s.resetBegin.respOut = [] := rfl
@[simp] theorem resetBegin_chanOpen : s.resetBegin.chanOpen = false := rfl
@[simp] theorem resetBegin_stalled : s.resetBegin.stalled = false := rfl
@[simp] theorem resetBegin_built : s.resetBegin.built = s.built := rfl

@[simp] theorem resetFinish_numTables : (s.resetFinish data).numTables = s.numTables := rfl
@[simp] theorem resetFinish_reqBuf : (s.resetFinish data).reqBuf = s.reqBuf := rfl
@[simp] theorem resetFinish_reqIn : (s.resetFinish data).reqIn = s.reqIn := rfl
@[simp] theorem resetFinish_respOut : (s.resetFinish data).respOut = s.respOut := rfl
@[simp] theorem resetFinish_chanOpen : (s.resetFinish data).chanOpen = true := rfl
@[simp] theorem resetFinish_stalled : (s.resetFinish data).stalled = s.stalled := rfl
@[simp] theorem resetFinish_built : (s.resetFinish data).built = construct s.numTables data := rfl

@[simp] theorem afterReset_numTables : (State.afterReset n data).numTables = n := rfl
@[simp] theorem afterReset_reqBuf : (State.afterReset n data).reqBuf = [] := rfl
@[simp] theorem afterReset_reqIn : (State.afterReset n data).reqIn = [] := rfl
@[simp] theorem afterReset_respOut : (State.afterReset n data).respOut = [] := rfl
@[simp] theorem afterReset_chanOpen : (State.afterReset n data).chanOpen = true := rfl
@[simp] theorem afterReset_stalled : (State.afterReset n data).stalled = false := rfl
@[simp] theorem afterReset_built : (State.afterReset n data).built = construct n data := rfl

@[simp] theorem reset_numTables : State.reset.numTables = Config.numTables := rfl
@[simp] theorem reset_reqBuf : State.reset.reqBuf = [] := rfl
@[simp] theorem reset_reqIn : State.reset.reqIn = [] := rfl
@[simp] theorem reset_respOut : State.reset.respOut = [] := rfl
@[simp] theorem reset_chanOpen : State.reset.chanOpen = true := rfl
@[simp] theorem reset_stalled : State.reset.stalled = false := rfl
@[simp] theorem reset_built : State.reset.built = construct Config.numTables Config.tableData := rfl

end Sys2Proof.Machine
end

