-- ==== Sys2Proof/Laws/Step.lean ====
section
/-! SUPPORT. What a command and a step can do, said once: every command appends its response and does nothing else; a step
holds, waits, executes or answers ILL. -/

namespace Sys2Proof.Machine

/-- What every meaning does (R30): the response goes out and nothing else changes. -/
theorem exec_eq (i : Instr) (s : State) : exec i s = .next (s.respond (responseTo s.numTables s.built i)) := by
  cases i <;> rfl

theorem execIllegal_eq (s : State) : execIllegal s = .next (s.respond (raise { ill := true })) := rfl

/-- The four things a step can be. -/
theorem step_cases (s : State) :
    (s.holding = true ∧ step s = .next s) ∨
    (s.holding = false ∧ ∃ i rest, fetch s = .instr i rest ∧ step s = exec i (s.advance rest)) ∨
    (s.holding = false ∧ ∃ why rest, fetch s = .illegal why rest ∧ step s = execIllegal (s.advance rest)) ∨
    (s.holding = false ∧ fetch s = .incomplete ∧ step s = .next s.await) := by
  by_cases h : s.holding = true
  · exact .inl ⟨h, by simp [step, h]⟩
  · have h' : s.holding = false := by simpa using h
    cases hf : fetch s with
    | instr i rest => exact .inr (.inl ⟨h', i, rest, rfl, by simp [step, h', hf]⟩)
    | illegal why rest => exact .inr (.inr (.inl ⟨h', why, rest, rfl, by simp [step, h', hf]⟩))
    | incomplete => exact .inr (.inr (.inr ⟨h', rfl, by simp [step, h', hf]⟩))

theorem holding_eq_false_iff (s : State) : s.holding = false ↔ s.chanOpen = true ∧ s.stalled = false := by
  simp [State.holding]

/-- A run takes its first step and goes on from there. -/
theorem run_succ {k : Nat} {s t : State} (h : step s = .next t) :
    Host.Core.run Sys2Proof.core (k + 1) s = Host.Core.run Sys2Proof.core k t := by
  have e : Host.Core.run Sys2Proof.core (k + 1) s = _ := Host.Core.run.eq_2 Sys2Proof.core s k
  have h' : Sys2Proof.core.step s = .next t := h
  rw [e, h']

/-- After a header come exactly P(OPC) payload beats (R65): the decoder either waits for them or takes exactly them. -/
theorem decode_cases (h : Beat) (tail : List Beat) :
    (tail.length < payloadLen h ∧ decode (h :: tail) = .incomplete) ∨
    (payloadLen h ≤ tail.length ∧
      ((∃ i, decode (h :: tail) = .instr i (tail.drop (payloadLen h))) ∨
        ∃ why, decode (h :: tail) = .illegal why (tail.drop (payloadLen h)))) := by
  have len : ∀ c, decodeHeader h = .ok c → payloadLen h =
      (match c with | .encode => 32 | .decode _ => 4 | _ => 0) := by
    intro c hc
    unfold decodeHeader at hc
    unfold payloadLen
    split_ifs at hc with h1 _ h2 _ h3 _ h4 _ h5 _ h6 <;> cases hc <;> simp_all
  rcases hd : decodeHeader h with why | c
  · by_cases hl : tail.length < payloadLen h
    · exact .inl ⟨hl, by simp [decode, hd, hl]⟩
    · exact .inr ⟨by omega, .inr ⟨why, by simp [decode, hd, hl]⟩⟩
  · have hp := len c hd
    cases c with
    | validate v => exact .inr ⟨by simp [hp], .inl ⟨.validate v, by simp [decode, hd, hp]⟩⟩
    | level v => exact .inr ⟨by simp [hp], .inl ⟨.level v, by simp [decode, hd, hp]⟩⟩
    | bootinfo => exact .inr ⟨by simp [hp], .inl ⟨.bootinfo, by simp [decode, hd, hp]⟩⟩
    | decodeset t q => exact .inr ⟨by simp [hp], .inl ⟨.decodeset t q, by simp [decode, hd, hp]⟩⟩
    | encode =>
      simp only at hp
      by_cases hl : tail.length < 32
      · exact .inl ⟨by omega, by simp [decode, hd, hl]⟩
      · exact .inr ⟨by omega, .inl ⟨_, by simp only [decode, hd, if_neg hl, hp]; rfl⟩⟩
    | decode q =>
      simp only at hp
      match tail with
      | [] => exact .inl ⟨by simp [hp], by simp [decode, hd]⟩
      | [_] => exact .inl ⟨by simp [hp], by simp [decode, hd]⟩
      | [_, _] => exact .inl ⟨by simp [hp], by simp [decode, hd]⟩
      | [_, _, _] => exact .inl ⟨by simp [hp], by simp [decode, hd]⟩
      | w0 :: w1 :: w2 :: w3 :: rest =>
        exact .inr ⟨by simp [hp], .inl ⟨.decode q w0 w1 w2 w3, by simp [decode, hd, hp]⟩⟩

end Sys2Proof.Machine
end

