-- ==== Sys2Proof/Tests/Slice0.lean ====
section
/-! SUPPORT. The model's own tests. Expected results are the spec's: the examples of its rules and the vectors of
spec/95_test_vectors.md, cited by their number. The witnesses at the end show, for each obligation with hypotheses, a
concrete state and operands that meet them all. -/

namespace Sys2Proof.Tests

open Sys2Proof Sys2Proof.Machine

/-! ### Well-formedness refuses an ill-formed term, one for each check -/

theorem test_wf_validate_too_big : (Instr.validate 2147483648).wellFormed = false := by decide
theorem test_wf_level_too_small : (Instr.level (-2147483649)).wellFormed = false := by decide
theorem test_wf_encode_63_values : (Instr.encode (List.replicate 63 0)).wellFormed = false := by decide
theorem test_wf_encode_wide_value : (Instr.encode (2147483648 :: List.replicate 63 0)).wellFormed = false := by decide
theorem test_wf_decode_wide_square : (Instr.decode 32768 0 0 0 0).wellFormed = false := by decide
theorem test_wf_decodeset_wide_table : (Instr.decodeset (-32769) 0).wellFormed = false := by decide
theorem test_wf_decodeset_wide_square : (Instr.decodeset 0 32768).wellFormed = false := by decide
theorem test_wf_score_wide_table : (Instr.score 32768 0).wellFormed = false := by decide
theorem test_wf_score_wide_square : (Instr.score 0 (-32769)).wellFormed = false := by decide
theorem test_wf_out_of_domain_is_well_formed : (Instr.decodeset (-1) 64).wellFormed = true := by decide

/-! ### Decoding: words written out from the formats of R62 and the opcode map of R64 -/

/-- VALIDATE 47 (R102's example). -/
theorem test_decode_validate :
    decode [0b0000000000000000000000000010111100000000000000000000000000000001#64] = .instr (.validate 47) [] := by decide

/-- LEVEL -35 (vector V2). -/
theorem test_decode_level :
    decode [0b1111111111111111111111111101110100000000000000000000000000000010#64] = .instr (.level (-35)) [] := by decide

/-- ENCODE of 63 zeros and 40 at square 63: beat 31 is 0x0000002800000000 (program P2). -/
theorem test_decode_encode :
    decode (0b0000000000000000000000000000000000000000000000000000000000000011#64 ::
      (List.replicate 31 0#64 ++ [0x0000002800000000#64])) = .instr (.encode (List.replicate 63 0 ++ [40])) [] := by decide

/-- DECODE -1 (vector D14). -/
theorem test_decode_decode :
    decode [0b0000000000000000111111111111111100000000000000000000000000000100#64, 1#64, 2#64, 3#64, 4#64, 5#64] =
      .instr (.decode (-1) 1#64 2#64 3#64 4#64) [5#64] := by decide

/-- DECODESET 3, 20 (vector T5). -/
theorem test_decode_decodeset :
    decode [0b0000000000000011000000000001010000000000000000000000000000000101#64] = .instr (.decodeset 3 20) [] := by decide

/-- SCORE 0, 11 has DECODESET's word and is read as DECODESET (R76, vector T1). -/
theorem test_decode_score : encode (.score 0 11) = [0x0000000B00000005#64] ∧
    decode [0b0000000000000000000000000000101100000000000000000000000000000101#64] = .instr (.decodeset 0 11) [] := by decide

/-- BOOTINFO (vector B1). -/
theorem test_decode_bootinfo :
    decode [0b0000000000000000000000000000000000000000000000000000000000000110#64] = .instr .bootinfo [] := by decide

/-- Illegal headers by name (vectors B3, B4, B6, B7). -/
theorem test_decode_illegal :
    decode [0x0000000000000000#64] = .illegal .reservedOpcode [] ∧
    decode [0x0000000000000007#64] = .illegal .reservedOpcode [] ∧
    decode [0x0000000000000016#64] = .illegal .reservedBits [] ∧
    decode [0x0000001410000001#64] = .illegal .reservedBits [] := by decide

/-- An illegal header still takes its payload beats (R163: DECODE with bit 48 set takes 4). -/
theorem test_decode_illegal_payload :
    decode [0x0001000000000004#64, 1#64, 2#64, 3#64] = .incomplete ∧
    decode [0x0001000000000004#64, 1#64, 2#64, 3#64, 4#64, 6#64] = .illegal .reservedBits [6#64] := by decide

/-- The opcode table's numbering: bit 0 of the number is bit 0 of the header. -/
theorem test_table_word : decodeTableWord 64 0x0003001400000005 = some (.decodeset 3 20) ∧
    decodeTableWord 64 3 = some (.encode (List.replicate 64 0)) ∧ decodeTableWord 64 0 = none := by decide

/-! ### The commands, one step each, on small blocks -/

/-- A READY block that holds the words of tables 0 and 3 of configuration CFG-A as spec/95_test_vectors.md lists them. -/
def readyBlock : Built := Built.success
  [(0, 0xFEDCBA9876543210), (3, 0xFEDCBA9876543210), (12, 0x43210FEDCBA98765), (13, 0x43210FEDCBA98765),
   (27, 0x9876543210FEDCBA)]

/-- The FAILED block of configuration CFG-B as spec/95_test_vectors.md lists its registers. -/
def failedBlock : Built :=
  { ready := false, failed := true, bootInv := true, bootOor := false, bootTable := 2, bootSquare := 9, bootValue := 7,
    store := [] }

/-- A block with `bs` on its request channel. -/
def blockWith (b : Built) (bs : List Beat) : State :=
  { numTables := 7, reqBuf := [], reqIn := bs, respOut := [], chanOpen := true, stalled := false, built := b }

/-- The response beats after one step. -/
def responseAfterStep (s : State) : List Beat :=
  match step s with
  | .next t => t.respOut
  | .fault _ => []
  | .refused _ => []

/-- Vectors V2, V11, V16. -/
theorem test_validate : responseAfterStep (blockWith readyBlock [0xFFFFFFDD00000001]) = [0x0000000001000000] ∧
    responseAfterStep (blockWith readyBlock [0x0000002F00000001]) = [0x0000000001000003] ∧
    responseAfterStep (blockWith readyBlock [0x7FFFFFFD00000001]) = [0x0000000001000002] := by decide

/-- Vectors V5, V7, V19. -/
theorem test_level : responseAfterStep (blockWith readyBlock [0xFFFFFFFB00000002]) = [0x0000000601000000] ∧
    responseAfterStep (blockWith readyBlock [0x0000000700000002]) = [0x0000000001000001] ∧
    responseAfterStep (blockWith failedBlock [0x0000002800000002]) = [0x0000000F02000000] := by decide

/-- Vector E5: square 63's level is bits [63:60] of word 3 (spec/90_conflicts.md C1). -/
theorem test_encode_words :
    responseAfterStep (blockWith readyBlock (3#64 :: (List.replicate 31 0#64 ++ [0x0000002800000000#64]))) =
      [0x0000000001000000, 0x7777777777777777, 0x7777777777777777, 0x7777777777777777, 0xF777777777777777] := by decide

/-- Vector E8: two invalid squares, 1 (45) and 3 (47), report the lower one. -/
theorem test_encode_first_failure :
    responseAfterStep (blockWith readyBlock
      (3#64 :: 0x0000002D00000000#64 :: 0x0000002F00000000#64 :: List.replicate 30 0#64)) = [0x0000002D01000102] := by decide

/-- Vectors D10 and D12: words that came from no ENCODE decode all the same. -/
theorem test_decode_arbitrary_words :
    responseAfterStep (blockWith readyBlock (0x0000000700000004 :: List.replicate 4 0x0123456789ABCDEF)) =
      [0x0000000501000000] ∧
    responseAfterStep (blockWith readyBlock (0x0000000F00000004 :: List.replicate 4 0x0123456789ABCDEF)) =
      [0xFFFFFFDD01000000] := by decide

/-- Vectors D13 and D14: square 64 and square -1. -/
theorem test_decode_index_errors :
    responseAfterStep (blockWith readyBlock (0x0000004000000004 :: List.replicate 4 0xFEDCBA9876543210)) =
      [0x0000000001000004] ∧
    responseAfterStep (blockWith readyBlock (0x0000FFFF00000004 :: List.replicate 4 0xFEDCBA9876543210)) =
      [0x0000000001000004] := by decide

/-- Vectors T1, T5, T6: tables 0, 3 and the last slot of table 6. -/
theorem test_decodeset :
    responseAfterStep (blockWith readyBlock [0x0000000B00000005]) = [0x0000001401000000] ∧
    responseAfterStep (blockWith readyBlock [0x0003001400000005]) = [0x0000000A01000000] ∧
    responseAfterStep (blockWith readyBlock [0x0006003F00000005]) = [0x0000000A01000000] := by decide

/-- Vectors T7, T10, T13, T15. -/
theorem test_decodeset_errors :
    responseAfterStep (blockWith readyBlock [0x0007000000000005]) = [0x0000000001000004] ∧
    responseAfterStep (blockWith readyBlock [0x0000FFFF00000005]) = [0x0000000001000004] ∧
    responseAfterStep (blockWith failedBlock [0x0000000B00000005]) = [0x0000000002000008] ∧
    responseAfterStep (blockWith failedBlock [0x0007000000000005]) = [0x000000000200000C] := by decide

/-- The bound is the block's own NUM_TABLES (R9, R145): with 3 tables, tables 3 and 5 are out of range; with 8, table 7 is
not, and its words here are zero. -/
theorem test_lookup_bound :
    responseAfterStep { blockWith readyBlock [0x0003001400000005] with numTables := 3 } = [0x0000000001000004] ∧
    responseAfterStep { blockWith readyBlock [0x0005000000000005] with numTables := 3 } = [0x0000000001000004] ∧
    responseAfterStep { blockWith readyBlock [0x0007000000000005] with numTables := 8 } = [0xFFFFFFDD01000000] := by decide

/-- SCORE 0, 11 (vector T1) as the meaning SCORE has of its own. -/
theorem test_score : exec (.score 0 11) (blockWith readyBlock []) =
    .next { blockWith readyBlock [] with respOut := [0x0000001401000000] } := rfl

/-- Vectors B1 and B2. -/
theorem test_bootinfo : responseAfterStep (blockWith readyBlock [6]) = [0x0000000001000000] ∧
    responseAfterStep (blockWith failedBlock [6]) = [0x0000000706020900] := by decide

/-- Vectors B5, B9, B10. -/
theorem test_illegal : responseAfterStep (blockWith readyBlock [0x000000000000000F]) = [0x0000000001000010] ∧
    responseAfterStep (blockWith readyBlock [0x0001000000000004, 0, 0, 0, 0]) = [0x0000000001000010] ∧
    responseAfterStep (blockWith failedBlock [0x000000000000000F]) = [0x0000000002000010] := by decide

/-- Program P5, step 1: the header of VALIDATE 20 is taken as the last payload beat of ENCODE. -/
theorem test_framing_error :
    step (blockWith readyBlock (3#64 :: (List.replicate 31 0#64 ++ [0x0000001400000001#64, 6#64]))) =
      .next { blockWith readyBlock [6#64] with respOut := [0x0000000101003E01] } := rfl

/-! ### Construction (spec/95_test_vectors.md, configurations CFG-A, CFG-B and CFG-C) -/

/-- CFG-A. -/
def cfgA (k s : Nat) : BitVec 32 := BitVec.ofInt 32 (5 * (((7 * k + s) % 16 : Nat) : Int) - 35)

/-- CFG-B: CFG-A with two entries changed. -/
def cfgB (k s : Nat) : BitVec 32 := if k = 2 ∧ s = 9 then 7 else if k = 4 ∧ s = 0 then 45 else cfgA k s

/-- The words of the first and the last table of CFG-A's STORE. -/
theorem test_construct_store :
    (construct 7 cfgA).store.read 0 = 0xFEDCBA9876543210 ∧ (construct 7 cfgA).store.read 7 = 0x6543210FEDCBA987 ∧
      (construct 7 cfgA).store.read 27 = 0x9876543210FEDCBA ∧ (construct 7 cfgA).ready = true := by decide +kernel

/-- CFG-B fails at table 2, square 9, and STORE is all zero. -/
theorem test_construct_failure : construct 7 cfgB = failedBlock := by decide +kernel

/-! ### Reset and the channel -/

/-- After reset the very first step runs the instruction that withFetchWord places, whatever TABLE_DATA is. -/
theorem test_first_step_runs : ∀ w ∈ [1, 2, 3, 4, 5, 6],
    (match step (State.reset.withFetchWord 64 w) with
      | .next t => t.reqIn.isEmpty && t.reqBuf.isEmpty && !t.respOut.isEmpty
      | _ => false) = true := by
  decide

/-- A packet that has not wholly arrived is kept, and nothing is answered. -/
theorem test_partial_packet : step (blockWith readyBlock [4#64, 1#64]) =
    .next { blockWith readyBlock [] with reqBuf := [4#64, 1#64] } := rfl

/-! ### The assembler (R75 to R78) -/

/-- A line with a comment, a hexadecimal operand read as the field's bits, and a refused line. -/
theorem test_read_line :
    readLine "VALIDATE  47 ; both".toList = .line (.request (.validate 47)) ∧
    readLine "SCORE 0xFFFF, 11".toList = .line (.request (.score (-1) 11)) ∧
    readLine ".beat 0x000000000000000F".toList = .line (.beat 15) ∧
    readLine "LEVEL 0x100000000".toList = .refused := by decide

/-- The text of a line. -/
theorem test_line_text :
    (AsmLine.request (.decodeset (-1) 11)).text = "DECODESET -1, 11".toList ∧
    (AsmLine.beat 15).text = ".beat 0x000000000000000F".toList := by decide

/-! ### Witnesses: every obligation with hypotheses has a state and operands that meet them all -/

theorem witness_ValidateReportsViolatedConstraints :
    0x0000002F00000001#64 &&& 0x00000000FFFFFFFF#64 = 0x0000000000000001#64 ∧
    0xFFFFFFFF00000001#64 &&& 0x00000000FFFFFFFF#64 = 0x0000000000000001#64 := by decide

theorem witness_LevelReturnsLevelOrConstraints : ValidValue (-35) ∧ ValidValue 40 ∧ ¬ ValidValue (-36) ∧ ¬ ValidValue 45 ∧
    0x8000000000000002#64 &&& 0x00000000FFFFFFFF#64 = 0x0000000000000002#64 := by decide

theorem witness_EncodePacksValidTable : (List.replicate 63 (-35) ++ [40] : List Int).length = 64 ∧
    (∀ v ∈ (List.replicate 63 (-35) ++ [40] : List Int), ValidValue v) ∧
    (List.replicate 63 (-35) ++ [40] : List Int)[16 * (3 : Fin 4).val + (15 : Fin 16).val]? = some 40 := by decide

theorem witness_EncodeReportsFirstOffendingSquare : (List.replicate 63 0 ++ [-40] : List Int).length = 64 ∧
    (List.replicate 63 0 ++ [-40] : List Int)[63]? = some (-40) ∧ ¬ ValidValue (-40) ∧
    ∀ (q' : Nat) (v' : Int), q' < 63 → (List.replicate 63 0 ++ [-40] : List Int)[q']? = some v' → ValidValue v' := by
  refine ⟨by decide, by decide, by decide, fun q' v' hq hv => ?_⟩
  rw [List.getElem?_append_left (by simpa using hq), List.getElem?_replicate] at hv
  rw [if_pos hq] at hv
  cases hv
  decide

theorem witness_EncodePayloadCarriesValuesInSquareOrder :
    (List.replicate 31 0#64 ++ [0x0000002800000000#64]).length = 32 := by decide

/-- A payload whose values are all zero, and one whose last value is 7. -/
theorem witness_EncodeRequestIsAnswered :
    let good := List.replicate 32 0#64
    let bad := List.replicate 31 0#64 ++ [0x0000000700000000#64]
    let s := blockWith readyBlock (0x0000000000000003#64 :: (good ++ []))
    let t := blockWith readyBlock (0x0000000000000003#64 :: (bad ++ []))
    (s.chanOpen = true ∧ s.stalled = false ∧ s.reqBuf = [] ∧ s.reqIn = 0x0000000000000003#64 :: (good ++ []) ∧
      good.length = 32 ∧ (∀ q < 64, ∃ b, good[q / 2]? = some b ∧
        (0 : Int) = (BitVec.ofNat 32 (b.toNat / 2 ^ (32 * (q % 2)))).toInt) ∧ ValidValue 0) ∧
    (t.chanOpen = true ∧ t.stalled = false ∧ t.reqBuf = [] ∧ t.reqIn = 0x0000000000000003#64 :: (bad ++ []) ∧
      bad.length = 32 ∧ (∀ q < 64, ∃ b, bad[q / 2]? = some b ∧
        (if q = 63 then (7 : Int) else 0) = (BitVec.ofNat 32 (b.toNat / 2 ^ (32 * (q % 2)))).toInt) ∧
      ¬ ValidValue (if 63 = 63 then (7 : Int) else 0) ∧
      ∀ q' < 63, ValidValue (if q' = 63 then (7 : Int) else 0)) := by
  refine ⟨⟨rfl, rfl, rfl, rfl, by decide, fun q hq => ⟨0#64, ?_, ?_⟩, by decide⟩,
    ⟨rfl, rfl, rfl, rfl, by decide, fun q hq => ?_, by decide, by decide⟩⟩
  · rw [List.getElem?_replicate, if_pos (by omega)]
  · simp
  · by_cases h : q / 2 < 31
    · refine ⟨0#64, ?_, by rw [if_neg (by omega)]; simp⟩
      rw [List.getElem?_append_left (by simpa using h), List.getElem?_replicate, if_pos h]
    · have : q = 62 ∨ q = 63 := by omega
      rcases this with rfl | rfl <;> exact ⟨0x0000000700000000#64, by decide, by decide⟩

theorem witness_DecodeReturnsSquareOrIndexError : ((-1 : Int) < 0 ∨ 64 ≤ (-1 : Int)) ∧ ((64 : Int) < 0 ∨ 64 ≤ (64 : Int)) ∧
    0x0000FFFF00000004#64 &&& 0xFFFF0000FFFFFFFF#64 = 0x0000000000000004#64 := by decide

/-- The last slot of the last table; a table id and a square just outside; a FAILED block. -/
theorem witness_DecodesetReturnsSquareOrErrors : (6 < (blockWith readyBlock []).numTables ∧ 63 < 64 ∧ (blockWith readyBlock []).built.ready = true) ∧
    ((blockWith readyBlock []).built.ready = false ∨ (7 : Int) < 0 ∨ (blockWith readyBlock []).numTables ≤ (7 : Int) ∨ (0 : Int) < 0 ∨ 64 ≤ (0 : Int)) ∧
    ((blockWith readyBlock []).built.ready = false ∨ (0 : Int) < 0 ∨ (blockWith readyBlock []).numTables ≤ (0 : Int) ∨ (64 : Int) < 0 ∨ 64 ≤ (64 : Int)) ∧
    ((blockWith failedBlock []).built.ready = false ∨ (0 : Int) < 0 ∨ (blockWith readyBlock []).numTables ≤ (0 : Int) ∨ (0 : Int) < 0 ∨ 64 ≤ (0 : Int)) ∧
    0xFFFF003F00000005#64 &&& 0x00000000FFFFFFFF#64 = 0x0000000000000005#64 := by decide

theorem witness_ScoreIsDecodeset : (0 < (blockWith readyBlock []).numTables ∧ 11 < 64 ∧ (blockWith readyBlock []).built.ready = true) ∧
    ((blockWith failedBlock []).built.ready = false ∨ (0 : Int) < 0 ∨ (blockWith readyBlock []).numTables ≤ (0 : Int) ∨ (0 : Int) < 0 ∨ 64 ≤ (0 : Int)) ∧
    (Instr.score (-32768) 32767).wellFormed = true := by decide

/-- Header 0x13: ENCODE with bit 4 set, and its 32 payload beats (vector B8). -/
theorem witness_IllegalRequestAnswersIll :
    let s := blockWith readyBlock (0x0000000000000013#64 :: List.replicate 32 0#64)
    s.chanOpen = true ∧ s.stalled = false ∧ s.reqBuf ++ s.reqIn = 0x0000000000000013#64 :: List.replicate 32 0#64 ∧
    (∀ r ∈ opcodeRows, 0x0000000000000013#64 &&& r.maskBits ≠ r.matchBits) ∧
    payloadLen 0x0000000000000013#64 ≤ (List.replicate 32 0#64).length := by decide

/-- An error response of a command other than ENCODE. -/
theorem witness_ResponseCommonFields : ¬ noErrorBits 0x0000000001000003#64 ∧ (∀ vs, Instr.validate 47 ≠ .encode vs) ∧
    Instr.validate 47 ≠ .bootinfo ∧
    exec (.validate 47) (blockWith readyBlock []) =
      .next { blockWith readyBlock [] with respOut := [0x0000000001000003#64] } :=
  ⟨by decide, by simp, by decide, rfl⟩

/-- VALIDATE with both of its kinds, and a lookup with both of its kinds. -/
theorem witness_ErrorKindsByCommand :
    (0x0000000001000003#64).getLsbD 0 = true ∧ (0x0000000001000003#64).getLsbD 1 = true ∧
    exec (.validate 47) (blockWith readyBlock []) =
      .next { blockWith readyBlock [] with respOut := [0x0000000001000003#64] } ∧
    (0x000000000200000C#64).getLsbD 2 = true ∧ (0x000000000200000C#64).getLsbD 3 = true ∧
    exec (.decodeset 7 0) (blockWith failedBlock []) =
      .next { blockWith failedBlock [] with respOut := [0x000000000200000C#64] } :=
  ⟨by decide, by decide, rfl, by decide, by decide, rfl⟩

theorem witness_StepKeepsEverythingResetBuilt :
    step (blockWith readyBlock [6]) = .next { blockWith readyBlock [] with respOut := [0x0000000001000000] } := rfl

theorem witness_ResponseDependsOnlyOnConstruction :
    (blockWith readyBlock [1, 2]).numTables = (blockWith readyBlock []).numTables ∧
      (blockWith readyBlock [1, 2]).built = (blockWith readyBlock []).built := ⟨rfl, rfl⟩

/-- A command that is no lookup, a lookup in a FAILED block, and two memories that agree in the slot of table 3, square
20. -/
theorem witness_StoreIsOpaque :
    (∀ t q, Instr.bootinfo ≠ .decodeset t q) ∧ (∀ t q, Instr.bootinfo ≠ .score t q) ∧
    (blockWith failedBlock []).built.ready = false ∧ 3 < (blockWith readyBlock []).numTables ∧ 20 < 64 ∧
    ((blockWith readyBlock []).built.store.read (4 * 3 + 20 / 16)).toNat / 2 ^ (4 * (20 % 16)) % 16 =
      (Memory.read [(13, 0x90000)] (4 * 3 + 20 / 16)).toNat / 2 ^ (4 * (20 % 16)) % 16 :=
  ⟨by simp, by simp, rfl, by decide, by decide, by decide⟩

theorem witness_OnlyBootinfoReadsBootRegisters : Instr.decodeset 0 0 ≠ .bootinfo := by decide

theorem witness_LookupFailsLoudly :
    ((blockWith readyBlock []).built.ready = false ∨ (7 : Int) < 0 ∨ (blockWith readyBlock []).numTables ≤ (7 : Int) ∨ (0 : Int) < 0 ∨ 64 ≤ (0 : Int)) ∧
    noErrorBits 0x0000001401000000#64 ∧ exec (.decodeset 0 11) (blockWith readyBlock []) =
      .next { blockWith readyBlock [] with respOut := [0x0000001401000000#64] } := ⟨by decide, by decide, rfl⟩

theorem witness_LevelAndUnlevelAreInverse : ValidValue (-35) ∧ ValidValue 0 ∧ ValidValue 40 := by decide

theorem witness_SlotsAreDisjoint : extract 0x0FFFFFFFFFFFFFFF#64 63 = 0#4 ∧ 63 % 16 ≠ 62 % 16 := by decide

/-- Two tables that differ only at square 16, the first of word 1. -/
theorem witness_EncodeOfOneSquareDisturbsNoOther :
    let us : List Int := List.replicate 64 (-35)
    let vs : List Int := (List.replicate 64 (-35)).set 16 40
    us.length = 64 ∧ vs.length = 64 ∧ (∀ v ∈ us, ValidValue v) ∧ (∀ v ∈ vs, ValidValue v) ∧
      ∀ q, q ≠ (16 : Fin 64).val → us[q]? = vs[q]? :=
  ⟨by decide, by decide, by decide, by decide,
    fun _ hq => (List.getElem?_set_ne (fun h => hq (by rw [← h]; rfl))).symm⟩

theorem witness_DecodeOfEncodeReturnsTheTable : (List.replicate 63 0 ++ [40] : List Int).length = 64 ∧
    (∀ v ∈ (List.replicate 63 0 ++ [40] : List Int), ValidValue v) ∧
    (List.replicate 63 0 ++ [40] : List Int)[(63 : Fin 64).val]? = some 40 := by decide

/-- CFG-A's entries are valid for every number of tables. -/
theorem cfgA_valid (n : Nat) : AllValid n cfgA := by
  intro k s _ _
  have h : ∀ m < 16, ValidValue (BitVec.ofInt 32 (5 * ((m : Nat) : Int) - 35)).toInt := by decide
  exact h _ (by omega)

theorem witness_ConstructionPacksValidTables : AllValid 7 cfgA := cfgA_valid 7

theorem witness_ConstructionRecordsFirstInvalidEntry : 7 ≤ 256 ∧ FirstInvalid 7 cfgB 2 9 := by
  refine ⟨by decide, by decide, by decide, by decide, fun k s hs h => ?_⟩
  have h1 : ¬ (k = 2 ∧ s = 9) := by omega
  have h2 : ¬ (k = 4 ∧ s = 0) := by omega
  rw [cfgB, if_neg h1, if_neg h2]
  exact cfgA_valid (k + 1) k s (by omega) hs

theorem witness_ResetLeavesRegistersConsistent : 1 ≤ 7 ∧ 7 ≤ 256 := by decide

theorem witness_LookupReturnsTableData :
    (State.afterReset 7 cfgA).built = construct (State.afterReset 7 cfgA).numTables cfgA ∧
      (State.afterReset 7 cfgA).built.ready = true ∧ 6 < (State.afterReset 7 cfgA).numTables :=
  ⟨rfl, test_construct_store.2.2.2, by decide⟩

theorem witness_PawnTableSquareElevenIsTwenty : 1 ≤ (State.afterReset 7 cfgA).numTables ∧ cfgA 0 11 = 20#32 ∧
    (State.afterReset 7 cfgA).built = construct (State.afterReset 7 cfgA).numTables cfgA ∧
      (State.afterReset 7 cfgA).built.ready = true :=
  ⟨by decide, by decide, rfl, test_construct_store.2.2.2⟩

/-- The smallest and the largest number of tables. -/
theorem witness_LookupBoundIsNumTables :
    (0 + 1 ≤ 256 ∧ AllValid (0 + 1) cfgA) ∧ 255 + 1 ≤ 256 ∧ AllValid (255 + 1) cfgA :=
  ⟨⟨by decide, cfgA_valid 1⟩, by decide, cfgA_valid 256⟩

theorem witness_FailedBlockAnswersLookupsWithNav : ¬ AllValid (State.afterReset 7 cfgB).numTables cfgB ∧
    (State.afterReset 7 cfgB).built = construct (State.afterReset 7 cfgB).numTables cfgB ∧ (∀ t q, Instr.validate 0 ≠ .decodeset t q) ∧
    (∀ t q, Instr.validate 0 ≠ .score t q) ∧ Instr.validate 0 ≠ .bootinfo :=
  ⟨fun h => absurd (h 2 9 (by decide) (by decide)) (by decide), rfl, by simp, by simp, by decide⟩

theorem witness_HeaderIsLegalExactlyByItsRow : ∃ r ∈ opcodeRows,
    0x0000003F00000004#64 &&& r.maskBits = r.matchBits := by decide

theorem witness_PayloadLengthFollowsOpcodeAlone :
    decode [0x0000000000000006#64, 1#64] = .instr .bootinfo [1#64] ∧
    decode [0x000000000000000F#64, 1#64] = .illegal .reservedOpcode [1#64] := by decide

theorem witness_DecodeOfEncodeIsTheCommand :
    (Instr.encode (List.replicate 63 2147483647 ++ [-2147483648])).wellFormed = true ∧
    (Instr.decodeset (-32768) 32767).wellFormed = true := by decide

theorem witness_EncodeOfDecodeIsTheRequest :
    decode [0xFFFF003F00000005#64, 9#64] = .instr (.decodeset (-1) 63) [9#64] := by decide

theorem witness_StepRunsDecodedCommand :
    let s := { blockWith readyBlock [1#64, 2#64, 3#64, 4#64, 9#64] with reqBuf := [0x0000003F00000004#64] }
    s.chanOpen = true ∧ s.stalled = false ∧
      decode (s.reqBuf ++ s.reqIn) = .instr (.decode 63 1#64 2#64 3#64 4#64) [9#64] := by decide

/-- A legal packet, an illegal one with its payload, and the beginning of a third; and a stream of commands. -/
theorem witness_StreamOfRequestsGetsResponsesInOrder :
    let ps := [[0x0000001400000001#64], [0x0001000000000004#64, 1#64, 2#64, 3#64, 4#64]]
    let is := [Instr.validate 20, .score 0 11, .bootinfo]
    let s := blockWith readyBlock (ps.flatten ++ [4#64])
    let t := blockWith readyBlock (requestStream is ++ [4#64])
    ((∀ p ∈ ps, isPacket p = true) ∧ s.chanOpen = true ∧ s.stalled = false ∧ s.reqBuf = [] ∧
      s.reqIn = ps.flatten ++ [4#64]) ∧
    (∀ i ∈ is, i.wellFormed = true) ∧ t.chanOpen = true ∧ t.stalled = false ∧ t.reqBuf = [] ∧
      t.reqIn = requestStream is ++ [4#64] := by decide

theorem witness_IncompleteRequestIsKept :
    let s := blockWith readyBlock [0x0000003F00000004#64, 1#64]
    s.chanOpen = true ∧ s.stalled = false ∧ decode (s.reqBuf ++ s.reqIn) = .incomplete := by decide

/-- A block that meets the invariant: READY, with nothing listed in STORE. -/
theorem blockInv (bs out : List Beat) :
    ({ blockWith (Built.success []) bs with respOut := out } : State).Inv where
  numTables_range := by simp [blockWith]
  reqBuf_partial := rfl
  stalled_pending := by simp [blockWith]
  closed_empty := by simp [blockWith]
  built_consistent :=
    { ready_not_failed := rfl, boot_zero := fun _ => ⟨rfl, rfl, rfl, rfl, rfl⟩, boot_kinds := by simp [blockWith, Built.success]
      boot_table := by simp [blockWith, Built.success], store_zero := fun _ => rfl, store_wf := rfl, store_within := rfl }

theorem witness_TakingResponsesLiftsTheStall :
    let s : State := { blockWith (Built.success []) [6#64] with respOut := [0x0000000001000010#64], stalled := true }
    s.Inv ∧ s.chanOpen = true ∧ s.stalled = true ∧ decode (s.reqBuf ++ s.reqIn) = .instr .bootinfo [] :=
  ⟨⟨⟨by decide, by decide⟩, rfl, by simp, by simp [blockWith], (blockInv [] []).built_consistent⟩, rfl, rfl, by decide⟩

theorem witness_MissingPayloadBeatSwallowsNextHeader :
    let s := blockWith readyBlock (3#64 :: (List.replicate 31 0#64 ++ 0x0000001400000001#64 :: [6#64]))
    (List.replicate 31 0#64).length = 31 ∧ s.chanOpen = true ∧ s.stalled = false ∧ s.reqBuf = [] ∧
      s.reqIn = 0x0000000000000003#64 :: (List.replicate 31 0#64 ++ 0x0000001400000001#64 :: [6#64]) := by decide

theorem witness_StepKeepsTheInvariant :
    (blockWith (Built.success []) [6]).Inv ∧ step (blockWith (Built.success []) [6]) =
      .next { blockWith (Built.success []) [] with respOut := [0x0000000001000000] } := ⟨blockInv [6] [], rfl⟩

theorem witness_EveryEventKeepsTheInvariant :
    (blockWith (Built.success []) []).Inv ∧
      Happens cfgA .resetBegin (blockWith (Built.success []) []) (blockWith (Built.success []) []).resetBegin ∧
      Happens cfgA .resetFinish (blockWith (Built.success []) []).resetBegin
        ((blockWith (Built.success []) []).resetBegin.resetFinish cfgA) :=
  ⟨blockInv [] [], .resetBegin _, .resetFinish _ rfl⟩

theorem witness_ResetMeetsTheInvariant : (1 ≤ 1 ∧ 1 ≤ 256) ∧ 1 ≤ 256 ∧ 256 ≤ 256 := by decide

theorem witness_ResetDiscardsAllState : (blockWith failedBlock [4]).numTables = 7 := rfl

theorem witness_ReachableStatesKeepConstruction : 1 ≤ 3 ∧ 3 ≤ 256 ∧
    Reachable 3 cfgA ((State.afterReset 3 cfgA).sendBeat 6) :=
  ⟨by decide, by decide, .event _ _ _ .reset (.send _ _)⟩

theorem witness_DisassembleOfAssembleIsTheProgram :
    (∀ i ∈ [Instr.score 0 11, .bootinfo], i.wellFormed = true) ∧
    (∀ r ∈ opcodeRows, 0x0001000000000004#64 &&& r.maskBits ≠ r.matchBits) ∧
    ([0#64, 0#64, 0#64, 0#64] : List Beat).length = payloadLen 0x0001000000000004#64 := by decide

theorem witness_TextOfLineReadsBack : (Instr.decode (-32768) 0 1 2 3).wellFormed = true := by decide

end Sys2Proof.Tests
end

/-! PROOFS. What the obligations of spec/00_scope.md need, and that family's theorems: a response as its header word, what a
lookup answers, what construction leaves, and what keeps the invariant. -/

namespace Sys2Proof.Machine

/-! ### Responses -/

theorem bit_toNat (b : Bool) : (bit b).toNat = b.toNat := by cases b <;> rfl

/-- The header laid out by concatenation (R72) is the sum of its fields at their places. -/
theorem header_eq_responseWord (r : Response) (b : Built) :
    r.header b = responseWord b r.errors r.result r.sq r.tbl r.binv r.boor := by
  apply BitVec.eq_of_toNat_eq
  simp only [Response.header, responseWord, append_toNat, bit_toNat, BitVec.toNat_ofNat]
  have := r.boor.toNat_lt
  have := r.binv.toNat_lt
  have := b.failed.toNat_lt
  have := b.ready.toNat_lt
  have := r.errors.ill.toNat_lt
  have := r.errors.nav.toNat_lt
  have := r.errors.iob.toNat_lt
  have := r.errors.oor.toNat_lt
  have := r.errors.inv.toNat_lt
  omega

/-- A command answers exactly the beats of its response. -/
theorem answers_iff (i : Instr) (s : State) (bs : List Beat) :
    Answers i s bs ↔ bs = (responseTo s.numTables s.built i).beats s.built := by
  rw [Answers, exec_eq, Host.Outcome.next.injEq, State.respond, State.mk.injEq]
  simp [eq_comm]

theorem answers_of_responseTo_eq_success {i : Instr} {s : State} {v : BitVec 32}
    (h : responseTo s.numTables s.built i = success v) : Answers i s [responseWord s.built {} v] := by
  rw [answers_iff, h, Response.beats, header_eq_responseWord]
  rfl

theorem answers_of_responseTo_eq_raise {i : Instr} {s : State} {e : ErrorSet}
    (h : responseTo s.numTables s.built i = raise e) : Answers i s [responseWord s.built e 0] := by
  rw [answers_iff, h, Response.beats, header_eq_responseWord]
  rfl

/-! ### The codec and the lookups -/

/-- Unlevel undoes Level on every valid Value (R142). -/
theorem unlevel_lvl4 {v : Int} (h : ValidValue v) : unlevel (lvl4 v) = v := by
  rw [unlevel, lvl4_toNat h, level]
  obtain ⟨⟨k, rfl⟩, -, -⟩ := h
  simp only [Config.valueStep, Config.bias]
  omega

theorem squareOf_val (q : Fin 64) : squareOf q.val = some q := by
  simp [squareOf]

theorem squareOf_isNone (i : Int) : (squareOf i).isNone = decide (i < 0 ∨ 64 ≤ i) := by
  rw [squareOf]
  split_ifs with h
  · simp only [Option.isNone_some]; symm; rw [decide_eq_false_iff_not]; omega
  · simp only [Option.isNone_none]; symm; rw [decide_eq_true_iff]; omega

theorem tableOf_natCast {n k : Nat} (h : k < n) : tableOf n k = some ⟨k, h⟩ := by
  simp [tableOf, h]

theorem tableOf_isNone (n : Nat) (i : Int) : (tableOf n i).isNone = decide (i < 0 ∨ n ≤ i) := by
  rw [tableOf]
  split_ifs with h
  · simp only [Option.isNone_some]; symm; rw [decide_eq_false_iff_not]; omega
  · simp only [Option.isNone_none]; symm; rw [decide_eq_true_iff]; omega

/-- A lookup in range in a READY block gives the Value of its slot of STORE (R145). -/
theorem lookupResponse_of_ready {n k : Nat} {b : Built} (hb : b.ready = true) (hk : k < n) (q : Fin 64) :
    lookupResponse n b k q.val = success (BitVec.ofInt 32 (unlevel (storeSlot b.store k q))) := by
  simp [lookupResponse, tableOf_natCast hk, squareOf_val, hb, memRead, storeIndex, storeSlot]

/-- The kinds a lookup reports, from the bounds of its operands (R145). -/
theorem lookupErrors_eq (n : Nat) (ready : Bool) (t q : Int) :
    lookupErrors n ready t q = { nav := !ready, iob := decide (t < 0 ∨ n ≤ t ∨ q < 0 ∨ 64 ≤ q) } := by
  simp only [lookupErrors, tableOf_isNone, squareOf_isNone, ← Bool.decide_or, or_assoc]

/-- A lookup in a block that is not READY, or out of range, reports every condition that fails (R145). -/
theorem lookupResponse_of_error {n : Nat} {b : Built} {t q : Int}
    (h : b.ready = false ∨ t < 0 ∨ n ≤ t ∨ q < 0 ∨ 64 ≤ q) :
    lookupResponse n b t q =
      raise { nav := !b.ready, iob := decide (t < 0 ∨ n ≤ t ∨ q < 0 ∨ 64 ≤ q) } := by
  rw [← lookupErrors_eq, lookupResponse]
  split
  next k p ht hq =>
    have table_in : ¬ (t < 0 ∨ n ≤ t) := by simpa [ht] using (tableOf_isNone n t).symm
    have square_in : ¬ (q < 0 ∨ 64 ≤ q) := by simpa [hq] using (squareOf_isNone q).symm
    have hr : b.ready = false := h.resolve_right (by omega)
    simp [hr]
  next => rfl

/-! ### Construction -/

theorem construct_ready_iff (n : Nat) (data : Nat → Nat → BitVec 32) :
    (construct n data).ready = true ↔ AllValid n data := by
  rcases construct_cases n data with ⟨m, hm, -, -, hv, -⟩ | ⟨k, q, ⟨hk, hq, hbad, -⟩, hb⟩
  · simp [hm, Built.success, hv]
  · simp only [hb, Bool.false_eq_true, false_iff]
    exact fun hv => hbad (hv k q hk hq)

/-- In a READY block, every slot of STORE holds the level of its entry of TABLE_DATA (R192). -/
theorem storeSlot_construct {n : Nat} {data : Nat → Nat → BitVec 32} (h : (construct n data).ready = true) {k : Nat}
    (hk : k < n) (q : Fin 64) : storeSlot (construct n data).store k q = lvl4 (data k q).toInt := by
  rcases construct_cases n data with ⟨m, hm, -, -, -, hslot⟩ | ⟨_, _, _, hb⟩
  · rw [hm]
    exact hslot k q hk
  · simp [hb] at h

/-- A lookup in range in a READY block gives the entry of TABLE_DATA (R146). -/
theorem lookupResponse_construct {n : Nat} {data : Nat → Nat → BitVec 32} (h : (construct n data).ready = true) {k : Nat}
    (hk : k < n) (q : Fin 64) : lookupResponse n (construct n data) k q.val = success (data k q) := by
  have hv : ValidValue (data k q).toInt := (construct_ready_iff n data).1 h k q hk q.isLt
  rw [lookupResponse_of_ready h hk, storeSlot_construct h hk, unlevel_lvl4 hv, BitVec.ofInt_toInt]

/-- What construction leaves is consistent (R25): the failing table's id fits its register, since there are at most 256
tables. -/
theorem construct_consistent {n : Nat} (hn : n ≤ 256) (data : Nat → Nat → BitVec 32) :
    (construct n data).Consistent n := by
  rcases construct_cases n data with ⟨m, hm, hwf, hin, -, -⟩ | ⟨k, q, ⟨hk, -, hbad, -⟩, hb⟩
  · rw [hm]
    exact
      { ready_not_failed := rfl
        boot_zero := fun _ => ⟨rfl, rfl, rfl, rfl, rfl⟩
        boot_kinds := nofun
        boot_table := nofun
        store_zero := nofun
        store_wf := hwf
        store_within := hin }
  · rw [hb]
    exact
      { ready_not_failed := rfl
        boot_zero := nofun
        boot_kinds := fun _ => ⟨rfl, rfl, by simpa [ErrorSet.any, validate] using (validate_any_eq_true_iff _).2 hbad⟩
        boot_table := fun _ => by simp only [BitVec.toNat_ofNat]; omega
        store_zero := fun _ => rfl
        store_wf := rfl
        store_within := rfl }

/-! ### Steps and the invariant -/

/-- The decoder waits exactly for the beats of a partial packet (R28). -/
theorem decode_eq_incomplete_iff (bs : List Beat) : decode bs = .incomplete ↔ partialPacket bs = true := by
  cases bs with
  | nil => simp [decode, partialPacket]
  | cons h tail =>
    rcases decode_cases h tail with ⟨hlt, hd⟩ | ⟨hle, ⟨i, hd⟩ | ⟨why, hd⟩⟩
    · simp [hd, partialPacket, hlt]
    · simp [hd, partialPacket, hle]
    · simp [hd, partialPacket, hle]

/-- A closed or stalled block does nothing (R194, R203). -/
theorem step_of_holding {s : State} (h : s.holding = true) : step s = .next s := by
  simp [step, h]

theorem step_of_fetch_instr {s : State} {i : Instr} {rest : List Beat} (h : s.holding = false)
    (hf : fetch s = .instr i rest) : step s = exec i (s.advance rest) := by
  simp [step, h, hf]

/-- What a step does to an open block that is not stalled: it takes a whole packet off the channel and answers it, or keeps
a partial one. -/
theorem step_effect {s : State} (h : s.holding = false) :
    (∃ rest r, step s = .next ((s.advance rest).respond r)) ∨
      partialPacket s.pending = true ∧ step s = .next s.await := by
  rcases step_cases s with ⟨hh, -⟩ | ⟨-, i, rest, -, hs⟩ | ⟨-, why, rest, -, hs⟩ | ⟨-, hf, hs⟩
  · simp [h] at hh
  · exact .inl ⟨rest, _, by rw [hs, exec_eq]⟩
  · exact .inl ⟨rest, _, by rw [hs, execIllegal_eq]⟩
  · exact .inr ⟨(decode_eq_incomplete_iff _).1 hf, hs⟩

theorem advance_inv {s : State} (h : s.Inv) (ho : s.chanOpen = true) (rest : List Beat) : (s.advance rest).Inv where
  numTables_range := h.numTables_range
  reqBuf_partial := rfl
  stalled_pending := h.stalled_pending
  closed_empty := by simp [ho]
  built_consistent := h.built_consistent

theorem respond_inv {s : State} (h : s.Inv) (ho : s.chanOpen = true) (r : Response) : (s.respond r).Inv where
  numTables_range := h.numTables_range
  reqBuf_partial := h.reqBuf_partial
  stalled_pending := by simp [Response.beats]
  closed_empty := by simp [ho]
  built_consistent := h.built_consistent

theorem await_inv {s : State} (h : s.Inv) (ho : s.chanOpen = true) (hp : partialPacket s.pending = true) :
    s.await.Inv where
  numTables_range := h.numTables_range
  reqBuf_partial := hp
  stalled_pending := h.stalled_pending
  closed_empty := by simp [ho]
  built_consistent := h.built_consistent

theorem afterReset_inv {n : Nat} (h1 : 1 ≤ n) (h2 : n ≤ 256) (data : Nat → Nat → BitVec 32) :
    (State.afterReset n data).Inv where
  numTables_range := ⟨h1, h2⟩
  reqBuf_partial := rfl
  stalled_pending := by simp
  closed_empty := by simp
  built_consistent := construct_consistent h2 data

/-! ### The obligations -/

/-- Settles O44: a held step changes nothing; any other answers a packet or keeps a partial one, and each operation it is
made of keeps the invariant of an open block. -/
theorem stepKeepsTheInvariant : Obligations.StepKeepsTheInvariant := by
  unfold Obligations.StepKeepsTheInvariant
  intro s t hi hst
  cases hh : s.holding with
  | true =>
    obtain rfl : s = t := by simpa [step_of_holding hh] using hst
    exact hi
  | false =>
    obtain ⟨ho, -⟩ := (holding_eq_false_iff s).1 hh
    rcases step_effect hh with ⟨rest, r, hs⟩ | ⟨hp, hs⟩
    · obtain rfl : (s.advance rest).respond r = t := by simpa [hs] using hst
      exact respond_inv (advance_inv hi ho rest) ho r
    · obtain rfl : s.await = t := by simpa [hs] using hst
      exact await_inv hi ho hp

/-- Settles O30: the lookup of a READY block at table 0, square 11. -/
theorem pawnTableSquareElevenIsTwenty : Obligations.PawnTableSquareElevenIsTwenty := by
  unfold Obligations.PawnTableSquareElevenIsTwenty
  refine ⟨Config.tableData_zero_eleven, fun data s hn hd hb hr => answers_of_responseTo_eq_success ?_⟩
  rw [hb] at hr ⊢
  simpa [responseTo, hd] using lookupResponse_construct hr hn (11 : Fin 64)

/-- Settles O31: valid contents make the block READY, so the last table is looked up, and only the table bound fails for
the next id. -/
theorem lookupBoundIsNumTables : Obligations.LookupBoundIsNumTables := by
  unfold Obligations.LookupBoundIsNumTables
  refine ⟨fun n data q _ hv => ?_, rfl, rfl, rfl, rfl, rfl, rfl, rfl, rfl⟩
  have hr : (construct (n + 1) data).ready = true := (construct_ready_iff _ _).2 hv
  have last := lookupResponse_construct hr n.lt_succ_self q
  have past : lookupResponse (n + 1) (construct (n + 1) data) (n + 1) q.val = raise { iob := true } := by
    rw [lookupResponse_of_error (by simp)]
    simp [hr]
  exact ⟨answers_of_responseTo_eq_success last, answers_of_responseTo_eq_success last,
    answers_of_responseTo_eq_raise past, answers_of_responseTo_eq_raise past⟩

/-- Settles O38: the beats received are what the step fetches from, and an open block that is not stalled does not hold. -/
theorem stepRunsDecodedCommand : Obligations.StepRunsDecodedCommand := by
  unfold Obligations.StepRunsDecodedCommand
  intro s i rest ho hn hd
  exact step_of_fetch_instr ((holding_eq_false_iff s).2 ⟨ho, hn⟩) hd

/-- Settles O45: construction leaves a consistent block for every number of tables in range, and this block's is in
range. -/
theorem resetMeetsTheInvariant : Obligations.ResetMeetsTheInvariant := by
  unfold Obligations.ResetMeetsTheInvariant
  obtain ⟨h1, h2⟩ := Config.numTables_range
  exact ⟨afterReset_inv h1 h2 Config.tableData, fun n data h1 h2 => afterReset_inv h1 h2 data⟩

end Sys2Proof.Machine

/-! PROOFS. What the obligations of spec/10_state.md need, and that family's theorems: what every event keeps, what a step
can lead to, that waiting for a packet delays and does nothing else, and what of STORE a response shows. -/

namespace Sys2Proof.Machine

/-! ### The host's events and the invariant -/

theorem sendBeat_inv {s : State} (h : s.Inv) (b : Beat) : (s.sendBeat b).Inv := by
  cases ho : s.chanOpen with
  | false => rwa [sendBeat_of_closed s b ho]
  | true =>
    exact
      { numTables_range := by simpa using h.numTables_range
        reqBuf_partial := by simpa using h.reqBuf_partial
        stalled_pending := by simpa using h.stalled_pending
        closed_empty := by simp [ho]
        built_consistent := by simpa using h.built_consistent }

/-- Taking the last waiting beat ends a stall (R203). -/
theorem takeBeat_inv {s : State} (h : s.Inv) : s.takeBeat.Inv where
  numTables_range := h.numTables_range
  reqBuf_partial := h.reqBuf_partial
  stalled_pending := by simp
  closed_empty hc := by
    obtain ⟨hbuf, hin, hout⟩ := h.closed_empty hc
    exact ⟨hbuf, hin, by simp [hout]⟩
  built_consistent := h.built_consistent

theorem stall_inv {s : State} (h : s.Inv) : s.stall.Inv := by
  by_cases hr : s.respOut = []
  · rwa [stall_of_taken s hr]
  · exact
      { numTables_range := by simpa using h.numTables_range
        reqBuf_partial := by simpa using h.reqBuf_partial
        stalled_pending := by simp [hr]
        closed_empty := by simpa using h.closed_empty
        built_consistent := by simpa using h.built_consistent }

theorem resume_inv {s : State} (h : s.Inv) : s.resume.Inv where
  numTables_range := h.numTables_range
  reqBuf_partial := h.reqBuf_partial
  stalled_pending := by simp
  closed_empty := h.closed_empty
  built_consistent := h.built_consistent

theorem resetBegin_inv {s : State} (h : s.Inv) : s.resetBegin.Inv where
  numTables_range := h.numTables_range
  reqBuf_partial := rfl
  stalled_pending := by simp
  closed_empty := by simp
  built_consistent := h.built_consistent

theorem resetFinish_inv {s : State} (h : s.Inv) (data : Nat → Nat → BitVec 32) : (s.resetFinish data).Inv where
  numTables_range := h.numTables_range
  reqBuf_partial := h.reqBuf_partial
  stalled_pending := h.stalled_pending
  closed_empty := by simp
  built_consistent := construct_consistent h.numTables_range.2 data

/-! ### What a step can lead to -/

/-- A step changes nothing, answers one packet taken off the channel, or keeps what has arrived. -/
theorem step_next_cases {s t : State} (h : step s = .next t) :
    t = s ∨ (∃ rest r, t = (s.advance rest).respond r) ∨ t = s.await := by
  cases hh : s.holding with
  | true =>
    rw [step_of_holding hh, Host.Outcome.next.injEq] at h
    exact .inl h.symm
  | false =>
    rcases step_effect hh with ⟨rest, r, hs⟩ | ⟨-, hs⟩ <;> rw [hs, Host.Outcome.next.injEq] at h
    · exact .inr (.inl ⟨rest, r, h.symm⟩)
    · exact .inr (.inr h.symm)

/-- The frame of a step (R30). -/
theorem step_frame {s t : State} (h : step s = .next t) :
    t.built = s.built ∧ t.numTables = s.numTables ∧ t.chanOpen = s.chanOpen ∧ t.stalled = s.stalled ∧
      ∃ bs, t.respOut = s.respOut ++ bs := by
  rcases step_next_cases h with rfl | ⟨rest, r, rfl⟩ | rfl
  · exact ⟨rfl, rfl, rfl, rfl, [], by simp⟩
  · exact ⟨rfl, rfl, rfl, rfl, r.beats s.built, rfl⟩
  · exact ⟨rfl, rfl, rfl, rfl, [], by simp⟩

/-- No event writes the number of tables (R27). -/
theorem happens_numTables {data : Nat → Nat → BitVec 32} {e : Event} {s t : State} (h : Happens data e s t) :
    t.numTables = s.numTables := by
  cases h with
  | run _ _ hs => exact (step_frame hs).2.1
  | _ => simp

/-- An event leaves what reset built as it was, or is the end of a reset and builds it again (R30, R190). -/
theorem happens_built {data : Nat → Nat → BitVec 32} {e : Event} {s t : State} (h : Happens data e s t) :
    t.built = s.built ∨ t.built = construct s.numTables data := by
  cases h with
  | run _ _ hs => exact .inl (step_frame hs).1
  | resetFinish => exact .inr rfl
  | _ => exact .inl (by simp)

/-! ### Waiting for the rest of a packet -/

theorem step_of_fetch_illegal {s : State} {why : IllegalHeader} {rest : List Beat} (h : s.holding = false)
    (hf : fetch s = .illegal why rest) : step s = execIllegal (s.advance rest) := by
  simp [step, h, hf]

theorem step_of_fetch_incomplete {s : State} (h : s.holding = false) (hf : fetch s = .incomplete) :
    step s = .next s.await := by
  simp [step, h, hf]

@[simp] theorem await_holding (s : State) : s.await.holding = s.holding := rfl

@[simp] theorem await_pending (s : State) : s.await.pending = s.pending := by
  simp [State.pending]

@[simp] theorem await_await (s : State) : s.await.await = s.await := by
  simp [State.await, State.pending]

/-- Taking the arrived beats into the received part beforehand does not change a step: it reads and consumes the two as one
stream (R198). -/
theorem step_await {s : State} (h : s.holding = false) : step s.await = step s := by
  have same_fetch : fetch s.await = fetch s := by simp [fetch]
  have not_holding : s.await.holding = false := (await_holding s).trans h
  rcases step_cases s with ⟨hh, -⟩ | ⟨-, i, rest, hf, hs⟩ | ⟨-, why, rest, hf, hs⟩ | ⟨-, hf, hs⟩
  · simp [h] at hh
  · rw [hs, step_of_fetch_instr not_holding (same_fetch.trans hf)]
    rfl
  · rw [hs, step_of_fetch_illegal not_holding (same_fetch.trans hf)]
    rfl
  · rw [hs, step_of_fetch_incomplete not_holding (same_fetch.trans hf), await_await]

/-- An open block accepts every beat the host offers, in order. -/
theorem sendBeats_of_open {s : State} (ho : s.chanOpen = true) (bs : List Beat) :
    s.sendBeats bs = { s with reqIn := s.reqIn ++ bs } := by
  induction bs generalizing s with
  | nil => simp [State.sendBeats]
  | cons b rest ih =>
    rw [State.sendBeats, ih (by simpa using ho), sendBeat_reqIn_of_open s b ho]
    simp [State.sendBeat, ho]

/-- A wait before more beats arrive makes no difference to a wait after them. -/
theorem await_sendBeats_await {s : State} (ho : s.chanOpen = true) (bs : List Beat) :
    (s.await.sendBeats bs).await = (s.sendBeats bs).await := by
  rw [sendBeats_of_open ho, sendBeats_of_open (s := s.await) ho]
  simp [State.await, State.pending]

/-- It makes no difference to the next step whether more beats arrive before a wait or after it (R28). -/
theorem step_sendBeats_await {s : State} (h : s.holding = false) (bs : List Beat) :
    step (s.await.sendBeats bs) = step (s.sendBeats bs) := by
  obtain ⟨ho, -⟩ := (holding_eq_false_iff s).1 h
  have after_send : (s.sendBeats bs).holding = false := by rw [sendBeats_of_open ho]; exact h
  have after_wait : (s.await.sendBeats bs).holding = false := by rw [sendBeats_of_open (s := s.await) ho]; exact h
  rw [← step_await after_wait, await_sendBeats_await ho, step_await after_send]

/-! ### What a response depends on -/

theorem exists_answers_both {i : Instr} {s t : State}
    (h : (responseTo s.numTables s.built i).beats s.built = (responseTo t.numTables t.built i).beats t.built) :
    ∃ bs, Answers i s bs ∧ Answers i t bs :=
  ⟨_, (answers_iff i s _).2 rfl, (answers_iff i t _).2 h⟩

/-- The header copies READY and FAILED from the state (R73) and nothing of STORE, so the response's fields decide. -/
theorem exists_answers_withStore {i : Instr} {s : State} {m : Memory}
    (h : responseTo s.numTables { s.built with store := m } i = responseTo s.numTables s.built i) :
    ∃ bs, Answers i s bs ∧ Answers i { s with built := { s.built with store := m } } bs :=
  exists_answers_both (congrArg (·.beats s.built) h.symm)

/-- A lookup in a block that is not READY reads nothing of STORE (R145). -/
theorem lookupResponse_withStore_of_not_ready {b : Built} (hr : b.ready = false) (n : Nat) (m : Memory) (t q : Int) :
    lookupResponse n { b with store := m } t q = lookupResponse n b t q := by
  rw [lookupResponse_of_error (.inl hr), lookupResponse_of_error (b := { b with store := m }) (.inl hr)]

/-- Only a lookup in a READY block reads STORE (R29). -/
theorem responseTo_withStore {i : Instr} {b : Built}
    (h : ((∀ t q, i ≠ .decodeset t q) ∧ ∀ t q, i ≠ .score t q) ∨ b.ready = false) (n : Nat) (m : Memory) :
    responseTo n { b with store := m } i = responseTo n b i := by
  cases i with
  | decodeset t q =>
    exact lookupResponse_withStore_of_not_ready (h.resolve_left fun ⟨not_decodeset, _⟩ => not_decodeset t q rfl) n m t q
  | score t q =>
    exact lookupResponse_withStore_of_not_ready (h.resolve_left fun ⟨_, not_score⟩ => not_score t q rfl) n m t q
  | _ => rfl

/-- A lookup in range reads one slot of STORE (R145). -/
theorem lookupResponse_withStore_of_slot_eq {n k : Nat} {b : Built} {m : Memory} (hk : k < n) (q : Fin 64)
    (h : storeSlot b.store k q = storeSlot m k q) :
    lookupResponse n { b with store := m } k q.val = lookupResponse n b k q.val := by
  by_cases hr : b.ready = true
  · rw [lookupResponse_of_ready hr hk, lookupResponse_of_ready (b := { b with store := m }) hr hk, h]
  · exact lookupResponse_withStore_of_not_ready (by simpa using hr) n m k q.val

/-! ### The obligations -/

/-- Settles O46: each event keeps the invariant by its own lemma, and a step by O44. -/
theorem everyEventKeepsTheInvariant : Obligations.EveryEventKeepsTheInvariant := by
  unfold Obligations.EveryEventKeepsTheInvariant
  intro data e s t hi h
  cases h with
  | send _ b => exact sendBeat_inv hi b
  | take => exact takeBeat_inv hi
  | stall => exact stall_inv hi
  | resume => exact resume_inv hi
  | resetBegin => exact resetBegin_inv hi
  | resetFinish => exact resetFinish_inv hi data
  | run _ _ hs => exact stepKeepsTheInvariant s t hi hs

/-- Settles O15: a command only sends its response, and a step has the frame `step_frame`. -/
theorem stepKeepsEverythingResetBuilt : Obligations.StepKeepsEverythingResetBuilt := by
  unfold Obligations.StepKeepsEverythingResetBuilt
  exact ⟨fun i s => ⟨_, exec_eq i s, rfl, rfl, rfl, rfl, rfl, rfl, fun _ => rfl, _, rfl⟩, fun _ _ h => step_frame h⟩

/-- Settles O17: the response is `responseTo` of the number of tables and of what reset built. -/
theorem responseDependsOnlyOnConstruction : Obligations.ResponseDependsOnlyOnConstruction := by
  unfold Obligations.ResponseDependsOnlyOnConstruction
  intro i s t hn hb
  exact exists_answers_both (by rw [hn, hb])

/-- Settles O18: without a lookup in a READY block no response reads STORE, and a lookup reads the one slot. -/
theorem storeIsOpaque : Obligations.StoreIsOpaque := by
  unfold Obligations.StoreIsOpaque
  refine ⟨fun i s m h => exists_answers_withStore (responseTo_withStore h _ m), fun k q s m hk hq h => ?_⟩
  have same_slot : storeSlot s.built.store k ⟨q, hq⟩ = storeSlot m k ⟨q, hq⟩ :=
    BitVec.eq_of_toNat_eq (by simpa only [storeSlot, extract_toNat] using h)
  exact exists_answers_withStore (lookupResponse_withStore_of_slot_eq hk ⟨q, hq⟩ same_slot)

/-- Settles O28: reset leaves what construction leaves, which is consistent. -/
theorem resetLeavesRegistersConsistent : Obligations.ResetLeavesRegistersConsistent := by
  unfold Obligations.ResetLeavesRegistersConsistent
  exact fun n data _ h256 => construct_consistent h256 data

/-- Settles O40: the step is the wait, and the wait commutes with the arrival of more beats. -/
theorem incompleteRequestIsKept : Obligations.IncompleteRequestIsKept := by
  unfold Obligations.IncompleteRequestIsKept
  intro s more ho hn hd
  have not_holding : s.holding = false := (holding_eq_false_iff s).2 ⟨ho, hn⟩
  exact ⟨s.await, step_of_fetch_incomplete not_holding hd, rfl, rfl, rfl, rfl, step_sendBeats_await not_holding more⟩

/-- Settles O47, by induction on the events: none writes the number of tables, and what reset built stays or is built again
from the same two parameters. -/
theorem reachableStatesKeepConstruction : Obligations.ReachableStatesKeepConstruction := by
  unfold Obligations.ReachableStatesKeepConstruction
  intro n data s h1 h256 hs
  induction hs with
  | reset => exact ⟨rfl, rfl, afterReset_inv h1 h256 data⟩
  | event e s t _ h ih =>
    obtain ⟨hn, hb, hi⟩ := ih
    refine ⟨(happens_numTables h).trans hn, ?_, everyEventKeepsTheInvariant data e s t hi h⟩
    rcases happens_built h with ht | ht
    · rw [ht, hb]
    · rw [ht, hn]

end Sys2Proof.Machine

/-! PROOFS. What the obligations of spec/20_memory.md need, and that family's theorems: a whole packet decodes the same
whatever follows it, a command's encoding is a packet that decodes to it, a stream of packets is run packet by packet, and
a slot is read by shift and mask. -/

namespace Sys2Proof.Machine

/-! ### A packet and the beats after it -/

/-- The same request with `more` after the beats that follow it. -/
def followedBy (more : List Beat) : Decoded → Decoded
  | .instr i rest => .instr i (rest ++ more)
  | .illegal why rest => .illegal why (rest ++ more)
  | .incomplete => .incomplete

/-- Once a request is complete, later beats do not change how it is read (R65). -/
theorem decode_append {bs : List Beat} (h : decode bs ≠ .incomplete) (more : List Beat) :
    decode (bs ++ more) = followedBy more (decode bs) := by
  match bs with
  | [] => exact absurd rfl h
  | header :: tail =>
    rw [List.cons_append]
    cases hd : decodeHeader header with
    | error why =>
      have hl : payloadLen header ≤ tail.length := by simpa [decode, hd] using h
      simp [decode, hd, followedBy, hl.not_gt, show ¬ tail.length + more.length < payloadLen header by omega,
        List.drop_append_of_le_length hl]
    | ok c =>
      cases c with
      | encode =>
        have hl : 32 ≤ tail.length := by simpa [decode, hd] using h
        simp [decode, hd, followedBy, hl.not_gt, show ¬ tail.length + more.length < 32 by omega,
          List.drop_append_of_le_length hl, List.take_append_of_le_length hl]
      | decode q =>
        match tail with
        | w0 :: w1 :: w2 :: w3 :: rest => simp [decode, hd, followedBy]
        | [] | [_] | [_, _] | [_, _, _] => exact absurd (by simp [decode, hd]) h
      | _ => simp [decode, hd, followedBy]

/-- A packet is read as one request with nothing left over, legal or not (R60, R65). -/
theorem decode_of_isPacket {p : List Beat} (hp : isPacket p = true) :
    (∃ i, decode p = .instr i []) ∨ ∃ why, decode p = .illegal why [] := by
  match p with
  | header :: tail =>
    have hlen : tail.length = payloadLen header := by simpa [isPacket] using hp
    have hdrop : tail.drop (payloadLen header) = [] := by simp [← hlen]
    rcases decode_cases header tail with ⟨hlt, -⟩ | ⟨-, hd⟩
    · omega
    · rwa [hdrop] at hd

/-- Legal or not, a packet is answered, and a response has at least its header (R50, R60). -/
theorem packetResponse_ne_nil {p : List Beat} (hp : isPacket p = true) (n : Nat) (b : Built) :
    packetResponse n b p ≠ [] := by
  rcases decode_of_isPacket hp with ⟨i, hd⟩ | ⟨why, hd⟩ <;> simp [packetResponse, hd, Response.beats]

/-! ### A stream of packets -/

/-- A step with a packet at the front takes exactly that packet and adds its response (R2, R50). -/
theorem step_of_isPacket {s : State} {p rest : List Beat} (hp : isPacket p = true) (hs : s.holding = false)
    (hb : s.reqBuf = []) (hin : s.reqIn = p ++ rest) :
    step s = .next { s with reqIn := rest, respOut := s.respOut ++ packetResponse s.numTables s.built p } := by
  have hadv : s.advance rest = { s with reqIn := rest } := by simp [State.advance, hb]
  have hf : fetch s = decode (p ++ rest) := by simp [fetch, State.pending, hb, hin]
  rcases decode_of_isPacket hp with ⟨i, hd⟩ | ⟨why, hd⟩
  · have hi : fetch s = .instr i rest := by rw [hf, decode_append (by simp [hd]), hd]; rfl
    rw [step_of_fetch_instr hs hi, exec_eq, hadv]
    simp [State.respond, packetResponse, hd]
  · have hi : fetch s = .illegal why rest := by rw [hf, decode_append (by simp [hd]), hd]; rfl
    rw [step_of_fetch_illegal hs hi, execIllegal_eq, hadv]
    simp [State.respond, packetResponse, hd]

/-- As many steps as packets answer them in order (R50), by induction on the packets. -/
theorem run_packets (ps : List (List Beat)) (rest : List Beat) (s : State) (hps : ∀ p ∈ ps, isPacket p = true)
    (hs : s.holding = false) (hb : s.reqBuf = []) (hin : s.reqIn = ps.flatten ++ rest) :
    Host.Core.run Sys2Proof.core ps.length s = .next
      { s with reqIn := rest, respOut := s.respOut ++ (ps.map (packetResponse s.numTables s.built)).flatten } := by
  induction ps generalizing s with
  | nil =>
    obtain rfl : s.reqIn = rest := by simpa using hin
    simp [Host.Core.run]
  | cons p ps ih =>
    obtain ⟨hp, hps⟩ := List.forall_mem_cons.1 hps
    have hstep := step_of_isPacket (rest := ps.flatten ++ rest) hp hs hb (by simpa using hin)
    calc Host.Core.run Sys2Proof.core (ps.length + 1) s
      _ = _ := run_succ hstep
      _ = _ := ih _ hps hs hb rfl
      _ = _ := by simp

/-! ### The encoding of a command is a packet -/

theorem beatValues_append {a b : Int} (ha : fitsField 32 a = true) (hb : fitsField 32 b = true) :
    beatValues (bits32 b ++ bits32 a) = [a, b] := by
  have low : (bits32 b ++ bits32 a).extractLsb' 0 32 = bits32 a := by
    rw [← BitVec.toNat_inj, field_toNat, append_toNat]; omega
  have high : (bits32 b ++ bits32 a).extractLsb' 32 32 = bits32 b := by
    rw [← BitVec.toNat_inj, field_toNat, append_toNat]; omega
  rw [beatValues, low, high, toInt_bits32 ha, toInt_bits32 hb]

/-- The payload of ENCODE gives its values back (R66). -/
theorem payloadValues_valueBeats : ∀ {vs : List Int}, 2 ∣ vs.length → (∀ v ∈ vs, fitsField 32 v = true) →
    payloadValues (valueBeats vs) = vs
  | [], _, _ => rfl
  | [_], heven, _ => by simp at heven
  | a :: b :: rest, heven, hfit => by
    simp only [List.forall_mem_cons] at hfit
    obtain ⟨ha, hb, hrest⟩ := hfit
    have hev : 2 ∣ rest.length := by simp only [List.length_cons] at heven; omega
    rw [valueBeats, payloadValues, beatValues_append ha hb, payloadValues_valueBeats hev hrest]
    rfl

/-- A well-formed command is read back from its own beats, SCORE as DECODESET (R76). -/
theorem decode_encode {i : Instr} (h : i.wellFormed = true) : decode (encode i) = .instr i.canonical [] := by
  cases i with
  | validate v => simp [encode, decode, decodeHeader, headerValue_headerV _ h, Instr.canonical]
  | level v => simp [encode, decode, decodeHeader, headerValue_headerV _ h, Instr.canonical]
  | encode vs =>
    obtain ⟨hlen, hfit⟩ : vs.length = 64 ∧ ∀ v ∈ vs, fitsField 32 v = true := by simpa [Instr.wellFormed] using h
    have hbeats : (valueBeats vs).length = 32 := by rw [valueBeats_length, hlen]
    have hvals : payloadValues ((valueBeats vs).take 32) = vs := by
      rw [List.take_of_length_le hbeats.le, payloadValues_valueBeats (by omega) hfit]
    simp [encode, decode, decodeHeader, hbeats, hvals, Instr.canonical]
  | decode q w0 w1 w2 w3 => simp [encode, decode, decodeHeader, headerSquare_headerS _ h, Instr.canonical]
  | decodeset t q =>
    obtain ⟨ht, hq⟩ : fitsField 16 t = true ∧ fitsField 16 q = true := by simpa [Instr.wellFormed] using h
    simp [encode, decode, decodeHeader, headerTable_headerTS _ _ ht, headerSquare_headerTS _ _ hq, Instr.canonical]
  | score t q =>
    obtain ⟨ht, hq⟩ : fitsField 16 t = true ∧ fitsField 16 q = true := by simpa [Instr.wellFormed] using h
    simp [encode, decode, decodeHeader, headerTable_headerTS _ _ ht, headerSquare_headerTS _ _ hq, Instr.canonical]
  | bootinfo => simp [encode, decode, decodeHeader, Instr.canonical]

/-- A well-formed command of any kind is a header and its opcode's payload beats (R60, R65). -/
theorem requestLength (i : Instr) : Laws.RequestLength.Statement i := by
  cases i with
  | validate v => exact Laws.RequestLength.validate v
  | level v => exact Laws.RequestLength.level v
  | encode vs => exact Laws.RequestLength.encode vs
  | decode q w0 w1 w2 w3 => exact Laws.RequestLength.decode q w0 w1 w2 w3
  | decodeset t q => exact Laws.RequestLength.decodeset t q
  | score t q => exact Laws.RequestLength.score t q
  | bootinfo => exact Laws.RequestLength.bootinfo

theorem isPacket_encode {i : Instr} (h : i.wellFormed = true) : isPacket (encode i) = true := by
  obtain ⟨header, tail, he, hlen⟩ := requestLength i h
  simp [he, isPacket, hlen]

theorem responseTo_canonical (n : Nat) (b : Built) (i : Instr) : responseTo n b i.canonical = responseTo n b i := by
  cases i <;> rfl

theorem packetResponse_encode {i : Instr} (h : i.wellFormed = true) (n : Nat) (b : Built) :
    packetResponse n b (encode i) = (responseTo n b i).beats b := by
  simp [packetResponse, decode_encode h, responseTo_canonical]

theorem requestStream_eq_flatten (is : List Instr) : requestStream is = (is.map encode).flatten := by
  induction is with
  | nil => rfl
  | cons i is ih => simp [requestStream, ih]

theorem responseStream_eq_flatten {is : List Instr} (h : ∀ i ∈ is, i.wellFormed = true) (n : Nat) (b : Built) :
    responseStream n b is = ((is.map encode).map (packetResponse n b)).flatten := by
  induction is with
  | nil => rfl
  | cons i is ih =>
    obtain ⟨hi, his⟩ := List.forall_mem_cons.1 h
    simp [responseStream, packetResponse_encode hi, ih his]

/-! ### Slots -/

/-- The slot of a square is its word shifted right and masked (R41, R140). -/
theorem shift_and_mask_eq_extract (w : Beat) (s : Nat) :
    (w >>> (4 * (s % 16))) &&& 15#64 = (extract w s).setWidth 64 := by
  apply BitVec.eq_of_toNat_eq
  have mask : ∀ x : Nat, x &&& 15 = x % 16 := fun x => Nat.and_two_pow_sub_one_eq_mod x 4
  rw [BitVec.toNat_and, BitVec.toNat_ushiftRight, Nat.shiftRight_eq_div_pow, BitVec.toNat_setWidth, extract_toNat]
  simp only [BitVec.toNat_ofNat, Nat.reducePow, Nat.reduceMod, mask]
  omega

/-! ### The obligations -/

/-- Settles O39: the run of a stream of packets, and a list of well-formed commands as the stream of its encodings. -/
theorem streamOfRequestsGetsResponsesInOrder : Obligations.StreamOfRequestsGetsResponsesInOrder := by
  unfold Obligations.StreamOfRequestsGetsResponsesInOrder
  refine ⟨fun ps rest s hps ho hn hb hin => ?_, fun p n b hp => packetResponse_ne_nil hp n b,
    fun is rest s his ho hn hb hin => ?_⟩
  · exact run_packets ps rest s hps ((holding_eq_false_iff s).2 ⟨ho, hn⟩) hb hin
  · have packets : ∀ p ∈ is.map encode, isPacket p = true :=
      List.forall_mem_map.2 fun i hi => isPacket_encode (his i hi)
    have hin' : s.reqIn = (is.map encode).flatten ++ rest := by rw [hin, requestStream_eq_flatten]
    have hrun := run_packets _ rest s packets ((holding_eq_false_iff s).2 ⟨ho, hn⟩) hb hin'
    rwa [List.length_map, ← responseStream_eq_flatten his] at hrun

/-- Settles O22: a field ored into a clear slot is that field, and `extract_insertSlot` leaves the other slots alone. -/
theorem slotsAreDisjoint : Obligations.SlotsAreDisjoint := by
  unfold Obligations.SlotsAreDisjoint
  refine ⟨shift_and_mask_eq_extract, fun w s f h => ?_, fun w s t f h => ?_⟩
  · rw [extract_insertSlot, if_pos rfl, h, BitVec.zero_or]
  · rw [extract_insertSlot, if_neg (Ne.symm h)]

end Sys2Proof.Machine

/-! PROOFS. What the obligations of spec/30_encoding.md need, and that family's theorems: the rows of the opcode map, a
request laid out again from what it decodes to, the fields and the forms of a response, the texts of the assembler and
how they are read, and what a stream of beats disassembles to. -/

namespace Sys2Proof.Machine

/-! ### Headers and their rows -/

theorem and_mask32_toNat (h : Beat) : (h &&& 0x00000000FFFFFFFF#64).toNat = h.toNat % 2 ^ 32 := by
  rw [BitVec.toNat_and]
  exact Nat.and_two_pow_sub_one_eq_mod h.toNat 32

/-- DECODE's mask leaves out the square's field, bits [47:32] (R64). -/
theorem and_maskS_toNat (h : Beat) :
    (h &&& 0xFFFF0000FFFFFFFF#64).toNat = h.toNat / 2 ^ 48 * 2 ^ 48 + h.toNat % 2 ^ 32 := by
  have parts : h = h.extractLsb' 48 16 ++ h.extractLsb' 32 16 ++ h.extractLsb' 0 32 := by
    rw [← BitVec.toNat_inj, append_toNat, append_toNat]
    simp only [field_toNat]
    omega
  have mask : 0xFFFF0000FFFFFFFF#64 = BitVec.allOnes 16 ++ 0#16 ++ BitVec.allOnes 32 := by decide
  conv_lhs => rw [parts, mask, BitVec.and_append, BitVec.and_append]
  simp only [BitVec.and_allOnes, BitVec.and_zero, append_toNat, field_toNat, BitVec.toNat_ofNat]
  omega

/-- A row of formats V and TS: an opcode, and zero in bits [31:4] (R62, R64). -/
theorem and_mask32_iff (h : Beat) (o : BitVec 4) :
    h &&& 0x00000000FFFFFFFF#64 = o.setWidth 64 ↔ headerOpc h = o ∧ lowBitsZero h = true := by
  rw [← BitVec.toNat_inj, and_mask32_toNat, headerOpc_eq_iff, lowBitsZero_iff, BitVec.toNat_setWidth]
  omega

/-- DECODE's row: format S has zero in bits [63:48] too (R62, R64). -/
theorem and_maskS_iff (h : Beat) (o : BitVec 4) :
    h &&& 0xFFFF0000FFFFFFFF#64 = o.setWidth 64 ↔
      headerOpc h = o ∧ lowBitsZero h = true ∧ topBitsZero h = true := by
  rw [← BitVec.toNat_inj, and_maskS_toNat, headerOpc_eq_iff, lowBitsZero_iff, topBitsZero_iff, BitVec.toNat_setWidth]
  omega

/-- A row of format N: an opcode, and zero in every other bit (R62, R64). -/
theorem and_mask64_iff (h : Beat) (o : BitVec 4) :
    h &&& 0xFFFFFFFFFFFFFFFF#64 = o.setWidth 64 ↔ headerOpc h = o ∧ upperBitsZero h = true := by
  have all : h &&& 0xFFFFFFFFFFFFFFFF#64 = h := BitVec.and_allOnes
  rw [all, ← BitVec.toNat_inj, headerOpc_eq_iff, upperBitsZero_iff, BitVec.toNat_setWidth]
  omega

/-- The decoder's header checks are the match and mask of R64's rows: on each branch the opcode is known, so one row is
left to agree with, and its zero bits are the branch's own check. -/
theorem decodeHeader_ok_iff (h : Beat) :
    (∃ c, decodeHeader h = .ok c) ↔ ∃ r ∈ opcodeRows, h &&& r.maskBits = r.matchBits := by
  have rows : (∃ r ∈ opcodeRows, h &&& r.maskBits = r.matchBits) ↔
      (headerOpc h = 1#4 ∧ lowBitsZero h = true) ∨ (headerOpc h = 2#4 ∧ lowBitsZero h = true) ∨
      (headerOpc h = 3#4 ∧ upperBitsZero h = true) ∨
      (headerOpc h = 4#4 ∧ lowBitsZero h = true ∧ topBitsZero h = true) ∨
      (headerOpc h = 5#4 ∧ lowBitsZero h = true) ∨ (headerOpc h = 6#4 ∧ upperBitsZero h = true) := by
    simp only [← and_mask32_iff, ← and_maskS_iff, ← and_mask64_iff]
    simp [opcodeRows]
  rw [rows, decodeHeader]
  split_ifs <;> simp_all

theorem headerOpc_and (h m : Beat) : headerOpc (h &&& m) = headerOpc h &&& headerOpc m := BitVec.extractLsb'_and

/-- A header that agrees with a row has that row's opcode: every mask covers bits [3:0] (R64). -/
theorem headerOpc_of_row {h : Beat} {r : OpcodeRow} (hr : r ∈ opcodeRows) (hm : h &&& r.maskBits = r.matchBits) :
    headerOpc h = headerOpc r.matchBits := by
  have covered : ∀ r ∈ opcodeRows, headerOpc r.maskBits = BitVec.allOnes 4 := by decide
  rw [← hm, headerOpc_and, covered r hr, BitVec.and_allOnes]

/-! ### A request and its beats -/

/-- A well-formed command is read back from a stream that begins with its own beats: beats after a complete request do
not change how it is read (R65). -/
theorem decode_encode_append {i : Instr} (hi : i.wellFormed = true) (rest : List Beat) :
    decode (encode i ++ rest) = .instr i.canonical rest := by
  rw [decode_append (by simp [decode_encode hi]), decode_encode hi]
  rfl

theorem payloadLen_eq (h : Beat) :
    payloadLen h = if h.toNat % 16 = 3 then 32 else if h.toNat % 16 = 4 then 4 else 0 := by
  simp [payloadLen, headerOpc_eq_iff]

/-- A complete legal request leaves the beats after its payload (R65). -/
theorem rest_of_decode_instr {h : Beat} {tail rest : List Beat} {i : Instr} (hd : decode (h :: tail) = .instr i rest) :
    rest = tail.drop (payloadLen h) := by
  rcases decode_cases h tail with ⟨-, he⟩ | ⟨-, ⟨j, he⟩ | ⟨why, he⟩⟩ <;> rw [he] at hd <;> cases hd
  rfl

/-- A complete illegal request leaves the beats after its payload (R65, R163). -/
theorem rest_of_decode_illegal {h : Beat} {tail rest : List Beat} {why : IllegalHeader}
    (hd : decode (h :: tail) = .illegal why rest) : rest = tail.drop (payloadLen h) := by
  rcases decode_cases h tail with ⟨-, he⟩ | ⟨-, ⟨j, he⟩ | ⟨why, he⟩⟩ <;> rw [he] at hd <;> cases hd
  rfl

/-! ### The beats of a decoded request -/

theorem bits32_toInt (b : BitVec 32) : bits32 b.toInt = b := BitVec.ofInt_toInt

theorem bits16_toInt (b : BitVec 16) : bits16 b.toInt = b := BitVec.ofInt_toInt

theorem headerN_of_fields {h : Beat} {o : BitVec 4} (ho : headerOpc h = o) (hz : upperBitsZero h = true) :
    headerN o = h := by
  rw [headerOpc_eq_iff] at ho
  rw [upperBitsZero_iff] at hz
  rw [← BitVec.toNat_inj, headerN_toNat]
  omega

theorem headerV_of_fields {h : Beat} {o : BitVec 4} (ho : headerOpc h = o) (hz : lowBitsZero h = true) :
    headerV o (headerValue h) = h := by
  rw [headerOpc_eq_iff] at ho
  rw [lowBitsZero_iff] at hz
  rw [← BitVec.toNat_inj, headerV_toNat, headerValue, bits32_toInt, field_toNat]
  omega

theorem headerS_of_fields {h : Beat} {o : BitVec 4} (ho : headerOpc h = o) (hz : lowBitsZero h = true)
    (ht : topBitsZero h = true) : headerS o (headerSquare h) = h := by
  rw [headerOpc_eq_iff] at ho
  rw [lowBitsZero_iff] at hz
  rw [topBitsZero_iff] at ht
  rw [← BitVec.toNat_inj, headerS_toNat, headerSquare, bits16_toInt, field_toNat]
  omega

theorem headerTS_of_fields {h : Beat} {o : BitVec 4} (ho : headerOpc h = o) (hz : lowBitsZero h = true) :
    headerTS o (headerTable h) (headerSquare h) = h := by
  rw [headerOpc_eq_iff] at ho
  rw [lowBitsZero_iff] at hz
  rw [← BitVec.toNat_inj, headerTS_toNat, headerTable, headerSquare, bits16_toInt, bits16_toInt, field_toNat,
    field_toNat]
  omega

/-- The header word of a decoded header, laid out by its format (R62, R64). -/
def headerWord : Header → Beat
  | .validate v => headerV 1#4 v
  | .level v => headerV 2#4 v
  | .encode => headerN 3#4
  | .decode q => headerS 4#4 q
  | .decodeset t q => headerTS 5#4 t q
  | .bootinfo => headerN 6#4

/-- The operands of a decoded header fit their fields (R77). -/
def HeaderFits : Header → Prop
  | .validate v => fitsField 32 v = true
  | .level v => fitsField 32 v = true
  | .encode => True
  | .decode q => fitsField 16 q = true
  | .decodeset t q => fitsField 16 t = true ∧ fitsField 16 q = true
  | .bootinfo => True

/-- What a header decodes to fits its fields and lays out that very header (R62, R63, R71). -/
theorem decodeHeader_eq_ok {h : Beat} {c : Header} (hc : decodeHeader h = .ok c) : headerWord c = h ∧ HeaderFits c := by
  unfold decodeHeader at hc
  split_ifs at hc with h1 z1 h2 z2 h3 z3 h4 z4 h5 z5 h6 z6 <;> cases hc
  · exact ⟨headerV_of_fields h1 z1, fitsField_toInt32 _⟩
  · exact ⟨headerV_of_fields h2 z2, fitsField_toInt32 _⟩
  · exact ⟨headerN_of_fields h3 z3, trivial⟩
  · obtain ⟨low, top⟩ := Bool.and_eq_true_iff.1 z4
    exact ⟨headerS_of_fields h4 low top, fitsField_toInt16 _⟩
  · exact ⟨headerTS_of_fields h5 z5, fitsField_toInt16 _, fitsField_toInt16 _⟩
  · exact ⟨headerN_of_fields h6 z6, trivial⟩

theorem payloadValues_length (bs : List Beat) : (payloadValues bs).length = 2 * bs.length := by
  induction bs with
  | nil => rfl
  | cons b bs ih =>
    simp only [payloadValues, beatValues, List.length_append, List.length_cons, List.length_nil, ih]
    omega

theorem fitsField_of_mem_payloadValues {bs : List Beat} : ∀ v ∈ payloadValues bs, fitsField 32 v = true := by
  induction bs with
  | nil => simp [payloadValues]
  | cons b bs ih =>
    rw [payloadValues, beatValues, List.forall_mem_append]
    exact ⟨List.forall_mem_cons.2 ⟨fitsField_toInt32 _, List.forall_mem_singleton.2 (fitsField_toInt32 _)⟩, ih⟩

/-- ENCODE's values lay out the beats they were read from (R66). -/
theorem valueBeats_payloadValues (bs : List Beat) : valueBeats (payloadValues bs) = bs := by
  induction bs with
  | nil => rfl
  | cons b bs ih =>
    have halves : b.extractLsb' 32 32 ++ b.extractLsb' 0 32 = b := by
      rw [← BitVec.toNat_inj, append_toNat, field_toNat, field_toNat]
      omega
    simp only [payloadValues, beatValues, List.cons_append, List.nil_append, valueBeats, bits32_toInt, halves, ih]

/-- Value `q` is bits 32(q mod 2) + 31 to 32(q mod 2) of beat q / 2 (R66). -/
theorem payloadValues_getElem? : ∀ {bs : List Beat} {q : Nat} {b : Beat}, bs[q / 2]? = some b →
    (payloadValues bs)[q]? = some (BitVec.ofNat 32 (b.toNat / 2 ^ (32 * (q % 2)))).toInt
  | [], _, _, h => by simp at h
  | x :: bs, 0, b, h => by
    obtain rfl : x = b := by simpa using h
    simp [payloadValues, beatValues, BitVec.extractLsb']
  | x :: bs, 1, b, h => by
    obtain rfl : x = b := by simpa using h
    simp [payloadValues, beatValues, BitVec.extractLsb', Nat.shiftRight_eq_div_pow]
  | x :: bs, q + 2, b, h => by
    rw [Nat.add_div_right q (by decide), List.getElem?_cons_succ] at h
    simpa [payloadValues, beatValues] using payloadValues_getElem? h

/-- A decoded command is well formed, is not SCORE, and encodes to the beats it was read from: its header lays out again
from what it decodes to, and so do ENCODE's payload beats from their values (R62, R66, R76). -/
theorem encode_of_decode {bs rest : List Beat} {i : Instr} (hd : decode bs = .instr i rest) :
    i.wellFormed = true ∧ i.canonical = i ∧ encode i ++ rest = bs := by
  match bs with
  | [] => cases hd
  | h :: tail =>
    cases hc : decodeHeader h with
    | error why =>
      simp only [decode, hc] at hd
      split_ifs at hd
    | ok c =>
      obtain ⟨hword, hfits⟩ := decodeHeader_eq_ok hc
      rw [decode, hc] at hd
      cases c with
      | validate v => cases hd; exact ⟨hfits, rfl, congrArg (· :: _) hword⟩
      | level v => cases hd; exact ⟨hfits, rfl, congrArg (· :: _) hword⟩
      | decodeset t q => cases hd; exact ⟨Bool.and_eq_true_iff.2 hfits, rfl, congrArg (· :: _) hword⟩
      | bootinfo => cases hd; exact ⟨rfl, rfl, congrArg (· :: _) hword⟩
      | decode q =>
        match tail with
        | w0 :: w1 :: w2 :: w3 :: _ => cases hd; exact ⟨hfits, rfl, congrArg (· :: _) hword⟩
        | [] | [_] | [_, _] | [_, _, _] => cases hd
      | encode =>
        dsimp only at hd
        split_ifs at hd with hl
        cases hd
        have hlen : (tail.take 32).length = 32 := by rw [List.length_take]; omega
        refine ⟨?_, rfl, ?_⟩
        · simpa [Instr.wellFormed, payloadValues_length, hlen] using fitsField_of_mem_payloadValues
        · rw [encode, valueBeats_payloadValues, List.cons_append, List.take_append_drop]
          exact congrArg (· :: _) hword

/-! ### The fields of a response header -/

/-- A response header as a number, from its top field down (R72). -/
theorem header_toNat (r : Response) (b : Built) : (r.header b).toNat =
    2 ^ 32 * r.result.toNat + 2 ^ 27 * (bit r.boor).toNat + 2 ^ 26 * (bit r.binv).toNat + 2 ^ 25 * (bit b.failed).toNat
      + 2 ^ 24 * (bit b.ready).toNat + 2 ^ 16 * r.tbl.toNat + 2 ^ 8 * r.sq.toNat + 16 * (bit r.errors.ill).toNat
      + 8 * (bit r.errors.nav).toNat + 4 * (bit r.errors.iob).toNat + 2 * (bit r.errors.oor).toNat
      + (bit r.errors.inv).toNat := by
  simp only [Response.header, append_toNat, BitVec.toNat_ofNat]
  omega

@[simp] theorem header_result (r : Response) (b : Built) : (r.header b).extractLsb' 32 32 = r.result := by
  rw [← BitVec.toNat_inj, field_toNat, header_toNat]; omega

@[simp] theorem header_tbl (r : Response) (b : Built) : (r.header b).extractLsb' 16 8 = r.tbl := by
  rw [← BitVec.toNat_inj, field_toNat, header_toNat]; omega

@[simp] theorem header_sq (r : Response) (b : Built) : (r.header b).extractLsb' 8 6 = r.sq := by
  rw [← BitVec.toNat_inj, field_toNat, header_toNat]; omega

@[simp] theorem header_boot_kinds (r : Response) (b : Built) :
    (r.header b).extractLsb' 26 2 = bit r.boor ++ bit r.binv := by
  rw [← BitVec.toNat_inj, field_toNat, header_toNat, append_toNat]; omega

/-- The bits that R72 gives no field are zero. -/
theorem header_reserved (r : Response) (b : Built) :
    (r.header b).extractLsb' 28 4 = 0#4 ∧ (r.header b).extractLsb' 14 2 = 0#2 ∧ (r.header b).extractLsb' 5 3 = 0#3 := by
  simp only [← BitVec.toNat_inj, field_toNat, header_toNat, BitVec.toNat_ofNat]
  omega

theorem getLsbD_eq_of_bit {h : Beat} {k : Nat} {c : Bool} (hc : h.toNat / 2 ^ k % 2 = (bit c).toNat) :
    h.getLsbD k = c := by
  rw [BitVec.getLsbD, Nat.testBit_eq_decide_div_mod_eq, hc, bit_toNat]
  cases c <;> rfl

@[simp] theorem header_ready (r : Response) (b : Built) : (r.header b).getLsbD 24 = b.ready :=
  getLsbD_eq_of_bit (by rw [header_toNat]; omega)

@[simp] theorem header_failed (r : Response) (b : Built) : (r.header b).getLsbD 25 = b.failed :=
  getLsbD_eq_of_bit (by rw [header_toNat]; omega)

/-- The error bits of a header are zero exactly for a response without an error (R70). -/
theorem noErrorBits_header_iff (r : Response) (b : Built) :
    noErrorBits (r.header b) ↔ r.errors.any = false := by
  have sum : noErrorBits (r.header b) ↔ (bit r.errors.inv).toNat = 0 ∧ (bit r.errors.oor).toNat = 0 ∧
      (bit r.errors.iob).toNat = 0 ∧ (bit r.errors.nav).toNat = 0 ∧ (bit r.errors.ill).toNat = 0 := by
    rw [noErrorBits, ← BitVec.toNat_inj, field_toNat, header_toNat, BitVec.toNat_ofNat]
    omega
  simp [sum, bit_toNat, ErrorSet.any, and_assoc]

theorem bit_false_append : bit false ++ bit false = 0#2 := by decide

/-- The header of the answer to an illegal request, without READY and FAILED: ILL alone (R163). -/
theorem header_illegal (b : Built) : ((raise { ill := true }).header b).extractLsb' 0 24 = 16#24 ∧
    ((raise { ill := true }).header b).extractLsb' 26 38 = 0#38 := by
  simp only [← BitVec.toNat_inj, field_toNat, header_toNat, BitVec.toNat_ofNat]
  simp only [raise, bit_toNat, Bool.toNat_true, Bool.toNat_false, BitVec.ofNat_eq_ofNat, BitVec.toNat_ofNat]
  have := b.failed.toNat_lt
  have := b.ready.toNat_lt
  omega

/-! ### What a response can be -/

/-- The responses a command can have: a result, its errors, and those of ENCODE and BOOTINFO (R70, R73). -/
inductive ResponseForm (b : Built) : Instr → Response → Prop where
  | result {i : Instr} (v : BitVec 32) (hi : ∀ vs, i ≠ .encode vs) (hv : ∀ x, i = .validate x → v = 0) :
      ResponseForm b i (success v)
  | errors {i : Instr} (e : ErrorSet) (hi : ∀ vs, i ≠ .encode vs) (he : e.any = true) : ResponseForm b i (raise e)
  | words (vs : List Int) (w : Words) : ResponseForm b (.encode vs) (successPayload w.toList)
  | offending (vs : List Int) (e : ErrorSet) (square : Nat) (value : Int) (he : e.any = true) :
      ResponseForm b (.encode vs) (raiseAt e square value)
  | bootinfo : ResponseForm b .bootinfo (bootinfoResponse b)

/-- Packing fails only for a constraint that is violated (R120). -/
theorem any_of_packFrom_eq_failure {vs : List Int} {s : Nat} {w : Words} {e : ErrorSet} {q : Nat} {v : Int}
    (h : packFrom vs s w = .failure e q v) : e.any = true := by
  induction vs generalizing s w with
  | nil => cases h
  | cons x vs ih =>
    rw [packFrom] at h
    split_ifs at h with hx
    · cases h; exact hx
    · exact ih h

theorem lookupResponse_form {n : Nat} {b : Built} {i : Instr} (t q : Int) (hi : ∀ vs, i ≠ .encode vs)
    (hv : ∀ x, i ≠ .validate x) : ResponseForm b i (lookupResponse n b t q) := by
  by_cases h : b.ready = false ∨ t < 0 ∨ n ≤ t ∨ q < 0 ∨ 64 ≤ q
  · rw [lookupResponse_of_error h]
    refine .errors _ hi ?_
    simpa [ErrorSet.any, or_comm] using h
  · simp only [not_or, not_lt, not_le, Bool.not_eq_false] at h
    obtain ⟨hr, ht, htn, hq, hqn⟩ := h
    lift t to ℕ using ht
    lift q to ℕ using hq
    rw [lookupResponse_of_ready hr (by omega) ⟨q, by omega⟩]
    exact .result _ hi fun x hx => absurd hx (hv x)

theorem responseTo_form (n : Nat) (b : Built) (i : Instr) : ResponseForm b i (responseTo n b i) := by
  cases i with
  | validate v =>
    rw [responseTo, validateResponse]
    split_ifs with h
    · exact .errors _ nofun h
    · exact .result _ nofun fun _ _ => rfl
  | level v =>
    rw [responseTo, levelResponse]
    split_ifs with h
    · exact .errors _ nofun h
    · exact .result _ nofun nofun
  | encode vs =>
    rw [responseTo, encodeResponse]
    cases h : pack vs with
    | words w => exact .words vs w
    | failure e q v => exact .offending vs e q v (any_of_packFrom_eq_failure h)
  | decode q w0 w1 w2 w3 =>
    rw [responseTo, decodeResponse]
    cases squareOf q with
    | none => exact .errors _ nofun rfl
    | some k => exact .result _ nofun nofun
  | decodeset t q => exact lookupResponse_form t q nofun nofun
  | score t q => exact lookupResponse_form t q nofun nofun
  | bootinfo => exact .bootinfo

/-! ### Texts: numbers and their digits -/

theorem decDigit_decChar : ∀ d < 10, decDigit (decChar d) = some d := by decide

theorem hexDigit_hexChar : ∀ d < 16, hexDigit (hexChar d) = some d := by decide

/-- Reading the decimal digits of `m` gives `m`, whatever text follows them. -/
theorem readDigits_decText {fuel m : Nat} (h : m < fuel) (tail : List Char) :
    readDigits 10 decDigit 0 (decText fuel m tail) = readDigits 10 decDigit m tail := by
  induction fuel generalizing m tail with
  | zero => omega
  | succ fuel ih =>
    rw [decText]
    split_ifs with hm
    · simp [readDigits, decDigit_decChar m hm]
    · rw [ih (by omega), readDigits, decDigit_decChar _ (Nat.mod_lt m (by decide))]
      simp only [Nat.div_add_mod']

/-- Decimal text is nothing but decimal digits before its tail. -/
theorem forall_mem_decText {P : Char → Prop} (hP : ∀ d < 10, P (decChar d)) (fuel m : Nat) {tail : List Char}
    (ht : ∀ c ∈ tail, P c) : ∀ c ∈ decText fuel m tail, P c := by
  induction fuel generalizing m tail with
  | zero => exact ht
  | succ fuel ih =>
    rw [decText]
    split_ifs with hm
    · exact List.forall_mem_cons.2 ⟨hP m hm, ht⟩
    · exact ih _ (List.forall_mem_cons.2 ⟨hP _ (Nat.mod_lt m (by decide)), ht⟩)

theorem decText_cons_ne_nil (fuel m : Nat) (c : Char) (tail : List Char) : decText fuel m (c :: tail) ≠ [] := by
  induction fuel generalizing m c tail with
  | zero => exact List.cons_ne_nil c tail
  | succ fuel ih =>
    rw [decText]
    split_ifs
    · exact List.cons_ne_nil _ _
    · exact ih _ _ _

theorem decText_ne_nil (fuel m : Nat) : decText (fuel + 1) m [] ≠ [] := by
  rw [decText]
  split_ifs
  · exact List.cons_ne_nil _ _
  · exact decText_cons_ne_nil _ _ _ _

theorem readNumber_of_ne_nil {base : Nat} {digit : Char → Option Nat} {cs : List Char} (h : cs ≠ []) :
    readNumber base digit cs = readDigits base digit 0 cs := by
  cases cs with
  | nil => exact absurd rfl h
  | cons c rest => rfl

theorem readNumber_decText (m : Nat) : readNumber 10 decDigit (decText (m + 1) m []) = some m := by
  rw [readNumber_of_ne_nil (decText_ne_nil m m), readDigits_decText m.lt_succ_self, readDigits]

/-- A number's text without a minus and without an x is read as a decimal number (R75). -/
theorem readInteger_of_decimal (n : Nat) {cs : List Char} {m : Nat} (h : ∀ c ∈ cs, c ≠ '-' ∧ c ≠ 'x')
    (hm : readNumber 10 decDigit cs = some m) : readInteger n cs = some (m : Int) := by
  rw [readInteger.eq_3, hm]
  · rfl
  · rintro rest rfl
    simp at h
  · rintro rest rfl
    simp at h

theorem readInteger_minus (n : Nat) {cs : List Char} {m : Nat} (hm : readNumber 10 decDigit cs = some m) :
    readInteger n ('-' :: cs) = some (-(m : Int)) := by
  rw [readInteger, hm]
  rfl

/-- An integer's decimal text reads back as that integer, whatever the field (R75). -/
theorem readInteger_integerText (n : Nat) (i : Int) : readInteger n (integerText i) = some i := by
  have digits : ∀ c ∈ decText (i.natAbs + 1) i.natAbs [], c ≠ '-' ∧ c ≠ 'x' :=
    forall_mem_decText (by decide) _ _ (by simp)
  rw [integerText]
  split_ifs with hi
  · rw [readInteger_minus n (readNumber_decText _)]
    congr 1; omega
  · rw [readInteger_of_decimal n digits (readNumber_decText _)]
    congr 1; omega

theorem readIntegers_map_integerText (n : Nat) (vs : List Int) : readIntegers n (vs.map integerText) = some vs := by
  induction vs with
  | nil => rfl
  | cons v vs ih => simp [readIntegers, readInteger_integerText, ih]

/-- The last `k` hexadecimal digits of a number, most significant first. -/
def hexDigits (k m : Nat) : List Char := (List.range k).map fun j => hexChar (m / 16 ^ (k - 1 - j) % 16)

theorem hexDigits_succ (k m : Nat) : hexDigits (k + 1) m = hexChar (m / 16 ^ k % 16) :: hexDigits k m := by
  simp [hexDigits, List.range_succ_eq_map, Function.comp_def, Nat.sub_sub, Nat.add_comm 1]

theorem beatText_eq_hexDigits (b : Beat) : beatText b = '0' :: 'x' :: hexDigits 16 b.toNat := rfl

/-- Reading `k` hexadecimal digits of `m` appends them to the digits read before. -/
theorem readDigits_hexDigits (k m acc : Nat) :
    readDigits 16 hexDigit acc (hexDigits k m) = some (acc * 16 ^ k + m % 16 ^ k) := by
  induction k generalizing acc with
  | zero => simp [hexDigits, readDigits, Nat.mod_one]
  | succ k ih =>
    rw [hexDigits_succ, readDigits, hexDigit_hexChar _ (Nat.mod_lt _ (by decide))]
    simp only [ih, Nat.mod_pow_succ]
    congr 1; ring

/-- A beat's text reads back as that beat (R75, R78). -/
theorem readBeat_beatText (b : Beat) : readBeat (beatText b) = some b := by
  have number : readNumber 16 hexDigit (hexDigits 16 b.toNat) = some b.toNat := by
    rw [readNumber_of_ne_nil (by simp [hexDigits_succ]), readDigits_hexDigits]
    simp [Nat.mod_eq_of_lt b.isLt]
  have short : (hexDigits 16 b.toNat).length ≤ 16 := by simp [hexDigits]
  rw [beatText_eq_hexDigits, readBeat, if_pos short, number]
  simp

/-! ### Texts: a line cut into its mnemonic and its operands -/

/-- A character that ends no operand and no mnemonic and begins no comment (R75). -/
def plainChar (c : Char) : Bool := c != ',' && c != ';' && !isBlank c

/-- A word of a printed line, its mnemonic or an operand: at least one character, and only plain ones. -/
def IsWordText (p : List Char) : Prop := p ≠ [] ∧ ∀ c ∈ p, plainChar c = true

theorem IsWordText.not_blank {p : List Char} (h : IsWordText p) : ∀ c ∈ p, isBlank c = false :=
  fun c hc => by simpa using (Bool.and_eq_true_iff.1 (h.2 c hc)).2

theorem IsWordText.no_comma {p : List Char} (h : IsWordText p) : ',' ∉ p :=
  fun hc => absurd (h.2 ',' hc) (by decide)

theorem IsWordText.no_comment {p : List Char} (h : IsWordText p) : ';' ∉ p :=
  fun hc => absurd (h.2 ';' hc) (by decide)

theorem IsWordText.head?_not_blank {p : List Char} (h : IsWordText p) : ∀ c ∈ p.head?, isBlank c = false :=
  fun c hc => h.not_blank c (List.mem_of_mem_head? hc)

theorem IsWordText.getLast?_not_blank {p : List Char} (h : IsWordText p) : ∀ c ∈ p.getLast?, isBlank c = false :=
  fun c hc => h.not_blank c (List.mem_of_mem_getLast? hc)

/-- No mnemonic has a blank, a comma or a semicolon, so a blank ends it (R75). -/
theorem isWordText_mnemonic (m : Mnemonic) : IsWordText m.text := by
  cases m <;> exact ⟨by decide, List.all_eq_true.1 (by decide)⟩

theorem isWordText_integerText (i : Int) : IsWordText (integerText i) := by
  have digits : ∀ c ∈ decText (i.natAbs + 1) i.natAbs [], plainChar c = true :=
    forall_mem_decText (by decide) _ _ (by simp)
  rw [integerText]
  split_ifs
  · exact ⟨by simp, List.forall_mem_cons.2 ⟨by decide, digits⟩⟩
  · exact ⟨decText_ne_nil _ _, digits⟩

theorem isWordText_beatText (b : Beat) : IsWordText (beatText b) := by
  have digit_plain : ∀ d < 16, plainChar (hexChar d) = true := by decide
  refine ⟨by simp [beatText], ?_⟩
  simp only [beatText, List.forall_mem_cons, List.forall_mem_map]
  exact ⟨by decide, by decide, fun _ _ => digit_plain _ (Nat.mod_lt _ (by decide))⟩

/-- Every printed operand is an operand's text. -/
theorem isWordText_of_mem_requestText {l : AsmLine} : ∀ p ∈ (requestText l).2, IsWordText p := by
  cases l with
  | beat b => simp [requestText, isWordText_beatText]
  | request i => cases i <;> simp [requestText, isWordText_integerText, isWordText_beatText]

/-- A text whose first and last characters are no blanks is trimmed already. -/
theorem trimBlanks_eq_self {cs : List Char} (hhead : ∀ c ∈ cs.head?, isBlank c = false)
    (hlast : ∀ c ∈ cs.getLast?, isBlank c = false) : trimBlanks cs = cs := by
  have keep : ∀ {ds : List Char}, (∀ c ∈ ds.head?, isBlank c = false) → ds.dropWhile isBlank = ds := by
    intro ds h
    cases ds with
    | nil => rfl
    | cons d ds => simp [List.dropWhile, h d (by simp)]
  rw [trimBlanks, keep hhead, keep (by simpa using hlast), List.reverse_reverse]

@[simp] theorem trimBlanks_space_cons (cs : List Char) : trimBlanks (' ' :: cs) = trimBlanks cs := rfl

theorem IsWordText.trimBlanks {p : List Char} (h : IsWordText p) : trimBlanks p = p :=
  trimBlanks_eq_self h.head?_not_blank h.getLast?_not_blank

theorem splitCommas_of_no_comma {p : List Char} (h : ',' ∉ p) : splitCommas p = [p] := by
  induction p with
  | nil => rfl
  | cons c p ih =>
    obtain ⟨hc, hp⟩ := List.ne_and_not_mem_of_not_mem_cons h
    simp [splitCommas, hc.symm, ih hp]

theorem splitCommas_append_comma {p : List Char} (h : ',' ∉ p) (rest : List Char) :
    splitCommas (p ++ ',' :: rest) = p :: splitCommas rest := by
  induction p with
  | nil => simp [splitCommas]
  | cons c p ih =>
    obtain ⟨hc, hp⟩ := List.ne_and_not_mem_of_not_mem_cons h
    simp [splitCommas, hc.symm, ih hp]

theorem operandsText_cons_cons (p q : List Char) (ops : List (List Char)) :
    operandsText (p :: q :: ops) = p ++ ',' :: ' ' :: operandsText (q :: ops) := by
  simp [operandsText]

/-- Operands printed after a space are cut at the commas into the operands again. -/
theorem splitCommas_operandsText {p : List Char} {ops : List (List Char)} (h : ∀ q ∈ p :: ops, IsWordText q) :
    (splitCommas (' ' :: operandsText (p :: ops))).map trimBlanks = p :: ops := by
  induction ops generalizing p with
  | nil =>
    have hp := h p (by simp)
    rw [operandsText, splitCommas_of_no_comma (by simp [hp.no_comma])]
    simp [hp.trimBlanks]
  | cons q ops ih =>
    obtain ⟨hp, hops⟩ := List.forall_mem_cons.1 h
    rw [operandsText_cons_cons, ← List.cons_append, splitCommas_append_comma (by simp [hp.no_comma]), List.map_cons,
      ih hops]
    simp [hp.trimBlanks]

/-- Printed operands begin and end with a character of an operand, and hold no comment (R75). -/
theorem operandsText_ends {p : List Char} {ops : List (List Char)} (h : ∀ q ∈ p :: ops, IsWordText q) :
    operandsText (p :: ops) ≠ [] ∧ (∀ c ∈ (operandsText (p :: ops)).head?, isBlank c = false) ∧
      (∀ c ∈ (operandsText (p :: ops)).getLast?, isBlank c = false) ∧ ';' ∉ operandsText (p :: ops) := by
  induction ops generalizing p with
  | nil =>
    have hp := h p (by simp)
    exact ⟨hp.1, hp.head?_not_blank, hp.getLast?_not_blank, hp.no_comment⟩
  | cons q ops ih =>
    obtain ⟨hp, hops⟩ := List.forall_mem_cons.1 h
    obtain ⟨hne, -, hlast, hcomment⟩ := ih hops
    rw [operandsText_cons_cons]
    refine ⟨by simp, ?_, ?_, by simp [hp.no_comment, hcomment]⟩
    · rw [List.head?_append_of_ne_nil _ hp.1]
      exact hp.head?_not_blank
    · rw [List.getLast?_append_of_ne_nil _ (by simp), List.getLast?_cons_of_ne_nil (by simp),
        List.getLast?_cons_of_ne_nil hne]
      exact hlast

/-- Operands printed after a mnemonic's space are read as those operands (R75). -/
theorem readOperands_operandsText {p : List Char} {ops : List (List Char)} (h : ∀ q ∈ p :: ops, IsWordText q) :
    readOperands (' ' :: operandsText (p :: ops)) = p :: ops := by
  obtain ⟨hne, hhead, hlast, -⟩ := operandsText_ends h
  rw [readOperands, trimBlanks_space_cons, trimBlanks_eq_self hhead hlast, if_neg hne, splitCommas_operandsText h]

theorem text_of_requestText_nil {l : AsmLine} {m : Mnemonic} (h : requestText l = (m, [])) : l.text = m.text := by
  rw [AsmLine.text, h]

theorem text_of_requestText_cons {l : AsmLine} {m : Mnemonic} {p : List Char} {ops : List (List Char)}
    (h : requestText l = (m, p :: ops)) : l.text = m.text ++ ' ' :: operandsText (p :: ops) := by
  rw [AsmLine.text, h]
  simp

theorem readMnemonic_text (m : Mnemonic) : readMnemonic m.text = some m := by
  cases m <;> decide

/-- A line without a comment and without blanks around it that begins with a mnemonic is read by its mnemonic and what
follows it. -/
theorem readLine_of_mnemonic {m : Mnemonic} {after : List Char} {l : AsmLine} (hcomment : ';' ∉ after)
    (hafter : ∀ c ∈ after.head?, isBlank c = true) (hlast : ∀ c ∈ after.getLast?, isBlank c = false)
    (hread : readRequest m (readOperands after) = some l) : readLine (m.text ++ after) = .line l := by
  have hm := isWordText_mnemonic m
  have no_comment : (m.text ++ after).takeWhile (· ≠ ';') = m.text ++ after := by
    rw [List.takeWhile_eq_self_iff]
    intro c hc
    have : c ≠ ';' := by rintro rfl; simp [hm.no_comment, hcomment] at hc
    simpa using this
  have trimmed : trimBlanks (m.text ++ after) = m.text ++ after := by
    refine trimBlanks_eq_self ?_ ?_
    · rw [List.head?_append_of_ne_nil _ hm.1]
      exact hm.head?_not_blank
    · cases after with
      | nil => simpa using hm.getLast?_not_blank
      | cons c rest => rwa [List.getLast?_append_of_ne_nil _ (by simp)]
  have not_blank : ∀ c ∈ m.text, (!isBlank c) = true := fun c hc => by simp [hm.not_blank c hc]
  have word : (m.text ++ after).takeWhile (fun c => !isBlank c) = m.text := by
    rw [List.takeWhile_append_of_pos not_blank]
    cases after with
    | nil => simp
    | cons c rest => simp [hafter c (by simp)]
  have remainder : (m.text ++ after).dropWhile (fun c => !isBlank c) = after := by
    rw [List.dropWhile_append_of_pos not_blank]
    cases after with
    | nil => simp
    | cons c rest => simp [hafter c (by simp)]
  simp only [readLine, no_comment, trimmed, word, remainder, readMnemonic_text, hread]
  simp [hm.1]

/-- A line's mnemonic and operands are read as that line: every number reads back (R75, R78). -/
theorem readRequest_requestText (l : AsmLine) : readRequest (requestText l).1 (requestText l).2 = some l := by
  cases l with
  | beat b => simp [requestText, readRequest, readBeat_beatText]
  | request i =>
    cases i <;>
      simp [requestText, readRequest, readInteger_integerText, readIntegers_map_integerText, readBeat_beatText]

/-- Every line reads back from its text, whether or not its operands fit their fields (R75). -/
theorem readLine_text (l : AsmLine) : readLine l.text = .line l := by
  have hread := readRequest_requestText l
  have hops := isWordText_of_mem_requestText (l := l)
  rcases h : requestText l with ⟨m, _ | ⟨p, ops⟩⟩ <;> rw [h] at hread hops
  · rw [text_of_requestText_nil h, ← List.append_nil m.text]
    exact readLine_of_mnemonic (by simp) (by simp) (by simp) hread
  · obtain ⟨hne, -, hlast, hcomment⟩ := operandsText_ends hops
    rw [text_of_requestText_cons h]
    refine readLine_of_mnemonic (by simp [hcomment]) (by simp [isBlank]) ?_ ?_
    · rwa [List.getLast?_cons_of_ne_nil hne]
    · rwa [readOperands_operandsText hops]

/-! ### The assembler and the disassembler -/

theorem assemble_request_eq_none_iff (i : Instr) :
    (AsmLine.request i).assemble = none ↔ i.wellFormed = false := by
  cases h : i.wellFormed <;> simp [AsmLine.assemble, h]

theorem fitsField32_eq_false_iff (v : Int) : fitsField 32 v = false ↔ v < -2147483648 ∨ 2147483647 < v := by
  rw [← Bool.not_eq_true, fitsField_iff]
  omega

theorem fitsField16_eq_false_iff (v : Int) : fitsField 16 v = false ↔ v < -32768 ∨ 32767 < v := by
  rw [← Bool.not_eq_true, fitsField_iff]
  omega

/-- A table and a square fit their fields, or one of them does not (R77). -/
theorem index_fits_eq_false_iff (t q : Int) : (fitsField 16 t && fitsField 16 q) = false ↔
    t < -32768 ∨ 32767 < t ∨ q < -32768 ∨ 32767 < q := by
  rw [Bool.and_eq_false_iff, fitsField16_eq_false_iff, fitsField16_eq_false_iff, or_assoc]

theorem wellFormed_encode_eq_false_iff (vs : List Int) : (Instr.encode vs).wellFormed = false ↔
    vs.length ≠ 64 ∨ ∃ v ∈ vs, v < -2147483648 ∨ 2147483647 < v := by
  rw [Instr.wellFormed, Bool.and_eq_false_iff, decide_eq_false_iff_not, List.all_eq_false]
  simp only [Bool.not_eq_true, fitsField32_eq_false_iff]

theorem rest_length_lt_of_decode_instr {bs rest : List Beat} {i : Instr} (hd : decode bs = .instr i rest) :
    rest.length < bs.length := by
  match bs with
  | [] => cases hd
  | h :: tail => simp [rest_of_decode_instr hd]

theorem rest_length_lt_of_decode_illegal {bs rest : List Beat} {why : IllegalHeader}
    (hd : decode bs = .illegal why rest) : rest.length < bs.length := by
  match bs with
  | [] => cases hd
  | h :: tail => simp [rest_of_decode_illegal hd]

/-- Any two fuels above the number of beats give the same lines: every request takes at least its header. -/
theorem disassembleFuel_congr {fuel fuel' : Nat} {bs : List Beat} (h : bs.length < fuel) (h' : bs.length < fuel') :
    disassembleFuel fuel bs = disassembleFuel fuel' bs := by
  induction fuel generalizing fuel' bs with
  | zero => omega
  | succ fuel ih =>
    obtain ⟨fuel', rfl⟩ := Nat.exists_eq_add_one_of_ne_zero (n := fuel') (by omega)
    rw [disassembleFuel, disassembleFuel]
    cases hd : decode bs with
    | instr i rest =>
      have shorter := rest_length_lt_of_decode_instr hd
      simp [ih (bs := rest) (fuel' := fuel') (by omega) (by omega)]
    | illegal why rest =>
      have shorter := rest_length_lt_of_decode_illegal hd
      simp [ih (bs := rest) (fuel' := fuel') (by omega) (by omega)]
    | incomplete => rfl

theorem disassembleFuel_eq_disassemble {fuel : Nat} {bs : List Beat} (h : bs.length < fuel) :
    disassembleFuel fuel bs = disassemble bs :=
  disassembleFuel_congr h bs.length.lt_succ_self

theorem disassemble_of_decode_instr {bs rest : List Beat} {i : Instr} (hd : decode bs = .instr i rest) :
    disassemble bs = .request i :: disassemble rest := by
  have shorter := rest_length_lt_of_decode_instr hd
  rw [← disassembleFuel_eq_disassemble shorter, disassemble, disassembleFuel, hd]

/-- An illegal request is given back as its raw beats (R78). -/
theorem disassemble_of_decode_illegal {packet rest : List Beat} {why : IllegalHeader}
    (hd : decode (packet ++ rest) = .illegal why rest) :
    disassemble (packet ++ rest) = packet.map .beat ++ disassemble rest := by
  have shorter := rest_length_lt_of_decode_illegal hd
  rw [← disassembleFuel_eq_disassemble shorter, disassemble, disassembleFuel, hd]
  simp

theorem disassemble_requestStream {is : List Instr} (h : ∀ i ∈ is, i.wellFormed = true) :
    disassemble (requestStream is) = is.map fun i => .request i.canonical := by
  induction is with
  | nil => rfl
  | cons i is ih =>
    obtain ⟨hi, his⟩ := List.forall_mem_cons.1 h
    rw [requestStream, disassemble_of_decode_instr (decode_encode_append hi _), ih his, List.map_cons]

/-- A header that agrees with no row, with its payload beats, is an illegal request whatever follows (R65, R69). -/
theorem decode_illegal_packet {h : Beat} {payload : List Beat}
    (hrows : ∀ r ∈ opcodeRows, h &&& r.maskBits ≠ r.matchBits) (hlen : payload.length = payloadLen h)
    (rest : List Beat) : ∃ why, decode (h :: payload ++ rest) = .illegal why rest := by
  cases hd : decodeHeader h with
  | ok c =>
    obtain ⟨r, hr, hm⟩ := (decodeHeader_ok_iff h).1 ⟨c, hd⟩
    exact absurd hm (hrows r hr)
  | error why => exact ⟨why, by simp [decode, hd, ← hlen]⟩

/-! ### The obligations -/

/-- Settles O35, by `decode_encode_append`. -/
theorem decodeOfEncodeIsTheCommand : Obligations.DecodeOfEncodeIsTheCommand := by
  unfold Obligations.DecodeOfEncodeIsTheCommand
  exact fun _ rest hi => decode_encode_append hi rest

/-- Settles O50: every line reads back, a request and a raw beat among them. -/
theorem textOfLineReadsBack : Obligations.TextOfLineReadsBack := by
  unfold Obligations.TextOfLineReadsBack
  exact ⟨fun i _ => readLine_text (.request i), fun b => readLine_text (.beat b)⟩

/-- Settles O5: the decoder takes exactly the 32 beats, and each gives its two halves. -/
theorem encodePayloadCarriesValuesInSquareOrder : Obligations.EncodePayloadCarriesValuesInSquareOrder := by
  unfold Obligations.EncodePayloadCarriesValuesInSquareOrder
  intro payload rest hlen
  refine ⟨payloadValues payload, ?_, by rw [payloadValues_length, hlen], fun q hq => ?_⟩
  · have hd : decodeHeader 3#64 = .ok .encode := by decide
    simp [decode, hd, hlen, List.take_left' hlen, List.drop_left' hlen]
  · have hlt : q / 2 < payload.length := by omega
    exact ⟨payload[q / 2], List.getElem?_eq_getElem hlt, payloadValues_getElem? (List.getElem?_eq_getElem hlt)⟩

/-- Settles O12: the header's fields are the response's, and each form of a response leaves the unused ones zero. -/
theorem responseCommonFields : Obligations.ResponseCommonFields := by
  unfold Obligations.ResponseCommonFields
  refine ⟨fun i s => ?_, fun s => ?_⟩
  · obtain ⟨r28, r14, r5⟩ := header_reserved (responseTo s.numTables s.built i) s.built
    refine ⟨_, _, (answers_iff i s _).2 rfl, header_ready _ _, header_failed _ _, r28, r14, r5, ?_⟩
    have form := responseTo_form s.numTables s.built i
    generalize responseTo s.numTables s.built i = r at form ⊢
    simp only [noErrorBits_header_iff, header_result, header_tbl, header_boot_kinds, header_sq]
    cases form with
    | result v hi hv =>
      refine ⟨nofun, fun _ => ⟨rfl, bit_false_append⟩, fun _ _ => rfl, ?_⟩
      rintro (⟨x, hx⟩ | ⟨⟨vs, hvs⟩, -⟩)
      · exact hv x hx
      · exact absurd hvs (hi vs)
    | errors e hi he => exact ⟨fun _ _ => rfl, fun _ => ⟨rfl, bit_false_append⟩, fun _ _ => rfl, fun _ => rfl⟩
    | words vs w => exact ⟨nofun, fun _ => ⟨rfl, bit_false_append⟩, fun _ _ => rfl, fun _ => rfl⟩
    | offending vs e q v he =>
      have error_bits : (raiseAt e q v).errors.any ≠ false := by simp [raiseAt, he]
      exact ⟨fun _ h => absurd rfl (h vs), fun _ => ⟨rfl, bit_false_append⟩, by simp [error_bits], by simp [error_bits]⟩
    | bootinfo => exact ⟨nofun, fun h => absurd rfl h, fun h => absurd rfl h, by simp⟩
  · exact ⟨_, execIllegal_eq s, header_ready _ _, header_failed _ _, header_illegal s.built⟩

/-- Settles O13: only ENCODE's packed words are a payload, and every other response of ENCODE has an error. -/
theorem responseLength : Obligations.ResponseLength := by
  unfold Obligations.ResponseLength
  intro i s
  refine ⟨_, _, (answers_iff i s _).2 rfl, ?_⟩
  have form := responseTo_form s.numTables s.built i
  generalize responseTo s.numTables s.built i = r at form ⊢
  rw [noErrorBits_header_iff]
  cases form with
  | result v hi _ => simp [success, hi]
  | errors e hi _ => simp [raise, hi]
  | words vs w => simp [successPayload, Words.toList, ErrorSet.any]
  | offending vs e q v he => simp [raiseAt, he]
  | bootinfo => simp [bootinfoResponse]

/-- Settles O33: each row is an opcode and the zero bits of its format, as the decoder checks them, and no two rows have
one opcode. -/
theorem headerIsLegalExactlyByItsRow : Obligations.HeaderIsLegalExactlyByItsRow := by
  unfold Obligations.HeaderIsLegalExactlyByItsRow
  refine ⟨decodeHeader_ok_iff, fun h r hr r' hr' hm hm' => ?_⟩
  have one_row : ∀ r ∈ opcodeRows, ∀ r' ∈ opcodeRows, headerOpc r.matchBits = headerOpc r'.matchBits → r = r' := by
    decide
  exact one_row r hr r' hr' ((headerOpc_of_row hr hm).symm.trans (headerOpc_of_row hr' hm'))

/-- Settles O34: the decoder waits for P(OPC) beats and takes exactly them, and P reads the low four bits alone. -/
theorem payloadLengthFollowsOpcodeAlone : Obligations.PayloadLengthFollowsOpcodeAlone := by
  unfold Obligations.PayloadLengthFollowsOpcodeAlone
  refine fun h tail => ⟨payloadLen_eq h, ?_, fun _ _ => rest_of_decode_instr, fun _ _ => rest_of_decode_illegal⟩
  simp [decode_eq_incomplete_iff, partialPacket]

/-- Settles O36, by `encode_of_decode`. -/
theorem encodeOfDecodeIsTheRequest : Obligations.EncodeOfDecodeIsTheRequest := by
  unfold Obligations.EncodeOfDecodeIsTheRequest
  exact fun _ _ _ => encode_of_decode

/-- Settles O48: a request is refused exactly when it is not well formed, and its fields have 32 or 16 bits. -/
theorem assemblerRefusesOperandsThatDoNotFit : Obligations.AssemblerRefusesOperandsThatDoNotFit := by
  unfold Obligations.AssemblerRefusesOperandsThatDoNotFit
  simp only [assemble_request_eq_none_iff]
  exact ⟨fitsField32_eq_false_iff, fitsField32_eq_false_iff, wellFormed_encode_eq_false_iff,
    fun q _ _ _ _ => fitsField16_eq_false_iff q, index_fits_eq_false_iff, index_fits_eq_false_iff, nofun, fun _ => rfl⟩

/-- Settles O49: a stream of encodings is read back request by request, and an illegal packet is given back raw. -/
theorem disassembleOfAssembleIsTheProgram : Obligations.DisassembleOfAssembleIsTheProgram := by
  unfold Obligations.DisassembleOfAssembleIsTheProgram
  refine ⟨fun _ => disassemble_requestStream, fun h payload rest hrows hlen => ?_⟩
  obtain ⟨why, hd⟩ := decode_illegal_packet hrows hlen rest
  exact disassemble_of_decode_illegal hd

/-- Settles O37, by running the decoder on each request. -/
theorem sampleWordsDecode : Obligations.SampleWordsDecode := by
  unfold Obligations.SampleWordsDecode
  decide

end Sys2Proof.Machine

/-! PROOFS. What the obligations of spec/40_validate.md need, and that family's theorems: what VALIDATE and LEVEL answer,
which headers are theirs, and the codec as a bijection of the valid Values and the 4-bit fields. -/

namespace Sys2Proof.Machine

/-! ### The headers of format V -/

/-- VALUE is the upper half of the header, read as two's complement (R63). -/
theorem headerValue_eq (h : Beat) : headerValue h = (BitVec.ofNat 32 (h.toNat / 2 ^ 32)).toInt := by
  have upper_half : h.extractLsb' 32 32 = BitVec.ofNat 32 (h.toNat / 2 ^ 32) := by
    rw [← BitVec.toNat_inj, field_toNat, BitVec.toNat_ofNat]
  rw [headerValue, upper_half]

theorem decode_of_opc_validate {h : Beat} (ho : headerOpc h = 1#4) (hz : lowBitsZero h = true) (tail : List Beat) :
    decode (h :: tail) = .instr (.validate (headerValue h)) tail := by
  simp [decode, decodeHeader, ho, hz]

theorem decode_of_opc_level {h : Beat} (ho : headerOpc h = 2#4) (hz : lowBitsZero h = true) (tail : List Beat) :
    decode (h :: tail) = .instr (.level (headerValue h)) tail := by
  simp [decode, decodeHeader, ho, hz]

/-! ### The responses of VALIDATE and LEVEL -/

/-- No kind is present only in the empty set of kinds. -/
theorem ErrorSet.eq_empty_of_any_eq_false {e : ErrorSet} (h : e.any = false) : e = {} := by
  cases e
  simpa [ErrorSet.any, and_assoc] using h

/-- VALIDATE reports the violated constraints whether or not there are any: its success is the report of none (R102). -/
theorem validateResponse_eq_raise (v : Int) : validateResponse v = raise (validate v) := by
  rw [validateResponse]
  split_ifs with h
  · rfl
  · rw [ErrorSet.eq_empty_of_any_eq_false (Bool.eq_false_of_not_eq_true h)]
    rfl

/-- The level of a valid Value fits its slot, so widening the slot gives the level itself (R101, R104). -/
theorem setWidth_lvl4 {v : Int} (h : ValidValue v) : (lvl4 v).setWidth 32 = BitVec.ofInt 32 (level v) := by
  rw [← lvl4_toNat h, BitVec.ofInt_natCast, BitVec.ofNat_toNat]

theorem levelResponse_of_validValue {v : Int} (h : ValidValue v) :
    levelResponse v = success (BitVec.ofInt 32 (level v)) := by
  rw [levelResponse, (validate_any_eq_false_iff v).2 h, setWidth_lvl4 h]
  rfl

theorem levelResponse_of_not_validValue {v : Int} (h : ¬ ValidValue v) : levelResponse v = raise (validate v) := by
  rw [levelResponse, if_pos ((validate_any_eq_true_iff v).2 h)]

/-! ### Unlevel -/

/-- Every 4-bit field decodes to a valid Value (R142). -/
theorem validValue_unlevel (f : BitVec 4) : ValidValue (unlevel f) := by
  have := f.isLt
  simp only [ValidValue, unlevel, Config.bias, Config.valueStep]
  omega

theorem level_unlevel (f : BitVec 4) : level (unlevel f) = f.toNat := by
  simp only [level, unlevel, Config.bias, Config.valueStep]
  omega

theorem lvl4_unlevel (f : BitVec 4) : lvl4 (unlevel f) = f := by
  rw [lvl4, level_unlevel, BitVec.ofInt_natCast, BitVec.ofNat_toNat, BitVec.setWidth_eq]

/-! ### The obligations -/

/-- Settles O1: VALIDATE's response is the report of both checks, and its row's zero bits are the decoder's check. -/
theorem validateReportsViolatedConstraints : Obligations.ValidateReportsViolatedConstraints := by
  unfold Obligations.ValidateReportsViolatedConstraints
  refine ⟨fun v s => answers_of_responseTo_eq_raise (validateResponse_eq_raise v), fun h tail hm => ?_⟩
  obtain ⟨ho, hz⟩ := (and_mask32_iff h 1#4).1 hm
  rw [decode_of_opc_validate ho hz, headerValue_eq]

/-- Settles O2: LEVEL answers the level of a valid value and the report of both checks for any other. -/
theorem levelReturnsLevelOrConstraints : Obligations.LevelReturnsLevelOrConstraints := by
  unfold Obligations.LevelReturnsLevelOrConstraints
  refine ⟨fun v s hv => ⟨answers_of_responseTo_eq_success (levelResponse_of_validValue hv), level_mem_range hv⟩,
    fun v s hv => answers_of_responseTo_eq_raise (levelResponse_of_not_validValue hv), fun h tail hm => ?_⟩
  obtain ⟨ho, hz⟩ := (and_mask32_iff h 2#4).1 hm
  rw [decode_of_opc_level ho hz, headerValue_eq]

/-- Settles O21: each of Level and Unlevel undoes the other. -/
theorem levelAndUnlevelAreInverse : Obligations.LevelAndUnlevelAreInverse := by
  unfold Obligations.LevelAndUnlevelAreInverse
  exact ⟨fun _ => unlevel_lvl4, fun f => ⟨validValue_unlevel f, lvl4_unlevel f⟩⟩

end Sys2Proof.Machine

/-! PROOFS. What the obligations of spec/41_encode.md need, and that family's theorems: where a slot stands in its word, what
packing answers for a valid table and for one with an invalid value, and ENCODE from its beats to its response. -/

namespace Sys2Proof.Machine

/-! ### Slots and words -/

/-- Slot `j` of word `i` is the slot of square 16i + j (R41). -/
theorem slotAt_eq_extractLsb' (w : Words) (i : Fin 4) (j : Fin 16) :
    slotAt w ⟨16 * i.val + j.val, by omega⟩ = (w.get i).extractLsb' (4 * j.val) 4 := by
  have word : wordIndex ⟨16 * i.val + j.val, by omega⟩ = i := by
    apply Fin.ext
    simp only [wordIndex]
    omega
  rw [slotAt, word, extract, bitOffset_eq, Nat.mul_add_mod, Nat.mod_eq_of_lt j.isLt]

/-- The 16 slots are all of a word: bit `k` is bit `k % 4` of slot `k / 4` (R121). -/
theorem eq_of_slots_eq {w x : Beat}
    (h : ∀ j : Fin 16, w.extractLsb' (4 * j.val) 4 = x.extractLsb' (4 * j.val) 4) : w = x := by
  apply BitVec.eq_of_getLsbD_eq
  intro k hk
  have bit_of_slot := congrArg (·.getLsbD (k % 4)) (h ⟨k / 4, by omega⟩)
  simpa [Nat.mod_lt, Nat.div_add_mod] using bit_of_slot

/-! ### What packing answers -/

/-- A table of valid values packs, and each square's slot holds its level (R121). -/
theorem pack_of_valid {vs : List Int} (hlen : vs.length = 64) (hvs : ∀ v ∈ vs, ValidValue v) :
    ∃ w, pack vs = .words w ∧ ∀ t : Fin 64, ∀ v, vs[t.val]? = some v → slotAt w t = lvl4 v := by
  rcases pack_cases hlen with ⟨w, hw, -, hslot⟩ | ⟨q, v, -, hv, hinv, -, -⟩
  · exact ⟨w, hw, hslot⟩
  · exact absurd (hvs v (List.mem_of_getElem? hv)) hinv

/-- There is only one lowest square with an invalid value, and packing reports it (R124). -/
theorem pack_of_first_invalid {vs : List Int} {q : Nat} {v : Int} (hlen : vs.length = 64) (hv : vs[q]? = some v)
    (hinv : ¬ ValidValue v) (hbefore : ∀ q' v', q' < q → vs[q']? = some v' → ValidValue v') :
    pack vs = .failure (validate v) q v := by
  rcases pack_cases hlen with ⟨w, -, hvs, -⟩ | ⟨p, u, -, hu, hinv', hbefore', hpack⟩
  · exact absurd (hvs v (List.mem_of_getElem? hv)) hinv
  · rcases lt_trichotomy p q with hlt | rfl | hgt
    · exact absurd (hbefore p u hlt hu) hinv'
    · obtain rfl : u = v := Option.some.inj (hu.symm.trans hv)
      exact hpack
    · exact absurd (hbefore' q v hgt hv) hinv

/-! ### What ENCODE answers -/

/-- Four packed words are ENCODE's payload, in word order (R122). -/
theorem answers_encode_of_pack_eq_words {vs : List Int} {w : Words} (h : pack vs = .words w) (s : State) :
    Answers (.encode vs) s [responseWord s.built {} 0, w.get 0, w.get 1, w.get 2, w.get 3] := by
  rw [answers_iff, responseTo, encodeResponse, h, Response.beats, header_eq_responseWord]
  rfl

/-- A failure of packing is answered with one beat, which names the square and its value (R122, R123). -/
theorem answers_encode_of_pack_eq_failure {vs : List Int} {e : ErrorSet} {q : Nat} {v : Int}
    (h : pack vs = .failure e q v) (s : State) :
    Answers (.encode vs) s [responseWord s.built e (BitVec.ofInt 32 v) (sq := BitVec.ofNat 6 q)] := by
  rw [answers_iff, responseTo, encodeResponse, h, Response.beats, header_eq_responseWord]
  rfl

/-- A step with a complete request at the front takes it off the channel and gives the answer of its command (R2). -/
theorem step_of_decode_of_answers {s : State} {i : Instr} {rest bs : List Beat} (hs : s.holding = false)
    (hb : s.reqBuf = []) (hd : decode s.reqIn = .instr i rest) (ha : Answers i { s with reqIn := rest } bs) :
    step s = .next { s with reqIn := rest, respOut := s.respOut ++ bs } := by
  have hf : fetch s = .instr i rest := by simpa [fetch, State.pending, hb] using hd
  have hadv : s.advance rest = { s with reqIn := rest } := by simp [State.advance, hb]
  rw [step_of_fetch_instr hs hf, hadv]
  exact ha

/-! ### The obligations -/

/-- Settles O3: packing a valid table puts the level of square 16i + j in its slot, which is slot j of word i. -/
theorem encodePacksValidTable : Obligations.EncodePacksValidTable := by
  unfold Obligations.EncodePacksValidTable
  intro vs s hlen hvs
  obtain ⟨w, hw, hslot⟩ := pack_of_valid hlen hvs
  refine ⟨w.get, answers_encode_of_pack_eq_words hw s, fun i j v hv => ?_⟩
  rw [← slotAt_eq_extractLsb', hslot _ v hv]
  rfl

/-- Settles O4: packing stops at the lowest offending square with both checks evaluated. -/
theorem encodeReportsFirstOffendingSquare : Obligations.EncodeReportsFirstOffendingSquare := by
  unfold Obligations.EncodeReportsFirstOffendingSquare
  intro vs q v s hlen hv hinv hbefore
  exact answers_encode_of_pack_eq_failure (pack_of_first_invalid hlen hv hinv hbefore) s

/-- Settles O6: the payload beats are read as the 64 values (O5), and the step answers what ENCODE answers for a valid
table (O3) or for one with an invalid value (O4). -/
theorem encodeRequestIsAnswered : Obligations.EncodeRequestIsAnswered := by
  unfold Obligations.EncodeRequestIsAnswered
  intro s payload rest value ho hn hb hin hlen hvalue
  obtain ⟨vs, hd, hvs, hbeat⟩ := encodePayloadCarriesValuesInSquareOrder payload rest hlen
  have hs : s.holding = false := (holding_eq_false_iff s).2 ⟨ho, hn⟩
  have value_at : ∀ q < 64, vs[q]? = some (value q) := by
    intro q hq
    obtain ⟨b, hpb, hv⟩ := hvalue q hq
    obtain ⟨c, hpc, hv'⟩ := hbeat q hq
    obtain rfl : b = c := Option.some.inj (hpb.symm.trans hpc)
    rw [hv', hv]
  rw [← hin] at hd
  refine ⟨fun hvalid => ?_, fun q hq hinv hbefore => ?_⟩
  · have all_valid : ∀ v ∈ vs, ValidValue v := by
      intro v hv
      obtain ⟨q, hq⟩ := List.mem_iff_getElem?.1 hv
      have hlt : q < 64 := hvs ▸ (List.getElem?_eq_some_iff.1 hq).1
      obtain rfl : value q = v := Option.some.inj ((value_at q hlt).symm.trans hq)
      exact hvalid q hlt
    obtain ⟨w, hans, hslot⟩ := encodePacksValidTable vs { s with reqIn := rest } hvs all_valid
    exact ⟨w, step_of_decode_of_answers hs hb hd hans, fun i j => hslot i j _ (value_at _ (by omega))⟩
  · refine step_of_decode_of_answers hs hb hd
      (encodeReportsFirstOffendingSquare vs q (value q) _ hvs (value_at q hq) hinv fun p u hp hu => ?_)
    obtain rfl : value p = u := Option.some.inj ((value_at p (hp.trans hq)).symm.trans hu)
    exact hbefore p hp

/-- Settles O23: a slot holds the level of its own square alone (O3), so every slot but that of `a` is the same, and a word
whose slots are all the same is the same word. -/
theorem encodeOfOneSquareDisturbsNoOther : Obligations.EncodeOfOneSquareDisturbsNoOther := by
  unfold Obligations.EncodeOfOneSquareDisturbsNoOther
  intro us vs a s hus hvs hu hv hsame
  obtain ⟨w, hw, hwslot⟩ := encodePacksValidTable us s hus hu
  obtain ⟨x, hx, hxslot⟩ := encodePacksValidTable vs s hvs hv
  have same_slot : ∀ (i : Fin 4) (j : Fin 16), 16 * i.val + j.val ≠ a.val →
      (w i).extractLsb' (4 * j.val) 4 = (x i).extractLsb' (4 * j.val) 4 := by
    intro i j hne
    have hat : us[16 * i.val + j.val]? = some us[16 * i.val + j.val] := List.getElem?_eq_getElem (by omega)
    rw [hwslot i j _ hat, hxslot i j _ (hsame _ hne ▸ hat)]
  exact ⟨w, x, hw, hx, fun i hi => eq_of_slots_eq fun j => same_slot i j (by omega), same_slot⟩

end Sys2Proof.Machine

/-! PROOFS. What the obligations of spec/42_decode.md need, and that family's theorems: the operands of DECODE and DECODESET
in their headers, the Value in a square's slot, and what DECODE and the lookups answer from four words or from STORE. -/

namespace Sys2Proof.Machine

/-! ### The headers of formats S and TS -/

/-- A field of the header is the header shifted down to the field's lowest bit and cut to its width (R12). -/
theorem extractLsb'_eq_ofNat (h : Beat) (k n : Nat) : h.extractLsb' k n = BitVec.ofNat n (h.toNat / 2 ^ k) := by
  rw [← BitVec.toNat_inj, field_toNat, BitVec.toNat_ofNat]

/-- SQUARE is bits [47:32] of the header, read as two's complement (R63). -/
theorem headerSquare_eq (h : Beat) : headerSquare h = (BitVec.ofNat 16 (h.toNat / 2 ^ 32)).toInt := by
  rw [headerSquare, extractLsb'_eq_ofNat]

/-- TABLE is bits [63:48] of the header, read as two's complement (R63). -/
theorem headerTable_eq (h : Beat) : headerTable h = (BitVec.ofNat 16 (h.toNat / 2 ^ 48)).toInt := by
  rw [headerTable, extractLsb'_eq_ofNat]

theorem decode_of_opc_decode {h : Beat} (ho : headerOpc h = 4#4) (hlow : lowBitsZero h = true)
    (htop : topBitsZero h = true) (w0 w1 w2 w3 : Beat) (rest : List Beat) :
    decode (h :: w0 :: w1 :: w2 :: w3 :: rest) = .instr (.decode (headerSquare h) w0 w1 w2 w3) rest := by
  simp [decode, decodeHeader, ho, hlow, htop]

theorem decode_of_opc_decodeset {h : Beat} (ho : headerOpc h = 5#4) (hz : lowBitsZero h = true) (tail : List Beat) :
    decode (h :: tail) = .instr (.decodeset (headerTable h) (headerSquare h)) tail := by
  simp [decode, decodeHeader, ho, hz]

/-! ### The Value in a slot -/

/-- The Value in a square's slot, from the word as a number (R140). -/
theorem unlevel_extract (word : Beat) (s : Nat) :
    unlevel (extract word s) = ((word.toNat / 2 ^ (4 * (s % 16)) % 16 : Nat) - 7 : Int) * 5 := by
  rw [unlevel, extract_toNat]

/-- A decoded Value fits RESULT, which reads back as that Value (R143). -/
theorem toInt_ofInt_unlevel (f : BitVec 4) : (BitVec.ofInt 32 (unlevel f)).toInt = unlevel f := by
  obtain ⟨-, hmin, hmax⟩ := validValue_unlevel f
  rw [BitVec.toInt_ofInt]
  exact Int.bmod_eq_of_le (by omega) (by omega)

/-- Word `i` of a table is beat `i` of its payload (R43, R74). -/
theorem Words.toList_getElem? (w : Words) (i : Fin 4) : w.toList[i.val]? = some (w.get i) := by
  fin_cases i <;> rfl

/-! ### DECODE -/

theorem decodeResponse_of_square (w : Words) (q : Fin 64) :
    decodeResponse q.val w = success (BitVec.ofInt 32 (unlevel (slotAt w q))) := by
  rw [decodeResponse, squareOf_val]
  rfl

theorem decodeResponse_of_no_square (w : Words) {q : Int} (h : q < 0 ∨ 64 ≤ q) :
    decodeResponse q w = raise { iob := true } := by
  have no_square : squareOf q = none := by rw [← Option.isNone_iff_eq_none, squareOf_isNone, decide_eq_true h]
  rw [decodeResponse, no_square]

theorem answers_decode_of_square (w : Words) (q : Fin 64) (s : State) :
    Answers (.decode q.val w.w0 w.w1 w.w2 w.w3) s
      [responseWord s.built {} (BitVec.ofInt 32 (unlevel (slotAt w q)))] :=
  answers_of_responseTo_eq_success (decodeResponse_of_square w q)

/-- DECODE of a square whose slot holds the level of a valid Value answers that Value (R142, R143). -/
theorem answers_decode_of_slotAt {w : Words} {q : Fin 64} {v : Int} (hslot : slotAt w q = lvl4 v) (hv : ValidValue v)
    (s : State) :
    Answers (.decode q.val w.w0 w.w1 w.w2 w.w3) s [responseWord s.built {} (BitVec.ofInt 32 v)] := by
  rw [← unlevel_lvl4 hv, ← hslot]
  exact answers_decode_of_square w q s

/-- A success has no error bit, whatever reset built (R72). -/
theorem noErrorBits_responseWord_success (b : Built) (v : BitVec 32) : noErrorBits (responseWord b {} v) := by
  have no_error : noErrorBits ((success v).header b) := (noErrorBits_header_iff _ _).2 rfl
  rwa [header_eq_responseWord] at no_error

/-! ### The lookups -/

theorem answers_of_responseTo_eq {i : Instr} {s : State} {r : Response} (h : responseTo s.numTables s.built i = r) :
    Answers i s (r.beats s.built) := by
  rw [answers_iff, h]

/-- SCORE answers what DECODESET answers (R147). -/
theorem answers_score_iff (t q : Int) (s : State) (bs : List Beat) :
    Answers (.score t q) s bs ↔ Answers (.decodeset t q) s bs := by
  rw [answers_iff, answers_iff, responseTo, responseTo]

/-- A lookup either reports a condition that fails, or its operands are in range in a READY block and it gives the Value of
some slot (R145). -/
theorem lookupResponse_cases (n : Nat) (b : Built) (t q : Int) :
    (∃ e : ErrorSet, (e.iob = true ∨ e.nav = true) ∧ lookupResponse n b t q = raise e) ∨
    (¬ (b.ready = false ∨ t < 0 ∨ n ≤ t ∨ q < 0 ∨ 64 ≤ q) ∧
      ∃ f, lookupResponse n b t q = success (BitVec.ofInt 32 (unlevel f))) := by
  by_cases h : b.ready = false ∨ t < 0 ∨ n ≤ t ∨ q < 0 ∨ 64 ≤ q
  · exact .inl ⟨_, by simpa [or_comm] using h, lookupResponse_of_error h⟩
  · refine .inr ⟨h, ?_⟩
    simp only [not_or, not_lt, not_le, Bool.not_eq_false] at h
    obtain ⟨hr, ht, htn, hq, hqn⟩ := h
    lift t to ℕ using ht
    lift q to ℕ using hq
    exact ⟨_, lookupResponse_of_ready hr (by omega) ⟨q, by omega⟩⟩

theorem header_iob (r : Response) (b : Built) : (r.header b).getLsbD 2 = r.errors.iob :=
  getLsbD_eq_of_bit (by rw [header_toNat]; omega)

theorem header_nav (r : Response) (b : Built) : (r.header b).getLsbD 3 = r.errors.nav :=
  getLsbD_eq_of_bit (by rw [header_toNat]; omega)

/-! ### A table's words in STORE -/

/-- The four words of table `k` in a memory (R42). -/
def Memory.readTable (m : Memory) (k : Nat) : Words :=
  ⟨m.read (4 * k), m.read (4 * k + 1), m.read (4 * k + 2), m.read (4 * k + 3)⟩

theorem get_readTable (m : Memory) (k : Nat) (i : Fin 4) : (m.readTable k).get i = m.read (4 * k + i.val) := by
  fin_cases i <;> rfl

/-- A table's words hold the slots of that table in STORE (R42, R145). -/
theorem slotAt_readTable (m : Memory) (k : Nat) (q : Fin 64) : slotAt (m.readTable k) q = storeSlot m k q := by
  rw [slotAt, get_readTable]
  rfl

/-! ### The obligations -/

/-- Settles O24: packing puts the level of each valid value in its own slot, and DECODE undoes the level there. -/
theorem decodeOfEncodeReturnsTheTable : Obligations.DecodeOfEncodeReturnsTheTable := by
  unfold Obligations.DecodeOfEncodeReturnsTheTable
  intro vs s t hlen hvs
  obtain ⟨w, hw, hslot⟩ := pack_of_valid hlen hvs
  refine ⟨_, _, _, _, _, noErrorBits_responseWord_success s.built 0, answers_encode_of_pack_eq_words hw s, ?_⟩
  exact fun q v hv => answers_decode_of_slotAt (hslot q v hv) (hvs v (List.mem_of_getElem? hv)) t

/-- Settles O29: construction puts the level of each entry in its slot of STORE, where a lookup finds it, and so does DECODE
of the table's words. -/
theorem lookupReturnsTableData : Obligations.LookupReturnsTableData := by
  unfold Obligations.LookupReturnsTableData
  intro data s hb hr k q hk
  rw [hb] at hr
  have lookup : lookupResponse s.numTables s.built k q.val = success (data k q.val) :=
    hb ▸ lookupResponse_construct hr hk q
  refine ⟨answers_of_responseTo_eq_success lookup, answers_of_responseTo_eq_success lookup, ?_⟩
  have slot : slotAt (s.built.store.readTable k) q = lvl4 (data k q.val).toInt := by
    rw [slotAt_readTable, hb, storeSlot_construct hr hk]
  have valid : ValidValue (data k q.val).toInt := (construct_ready_iff _ _).1 hr k q.val hk q.isLt
  have decoded := answers_decode_of_slotAt slot valid s
  rw [BitVec.ofInt_toInt] at decoded
  exact decoded

/-- Settles O7: DECODE reads the slot of its square in the word that holds it, and its row's zero bits are the decoder's
check. -/
theorem decodeReturnsSquareOrIndexError : Obligations.DecodeReturnsSquareOrIndexError := by
  unfold Obligations.DecodeReturnsSquareOrIndexError
  refine ⟨fun q w0 w1 w2 w3 s => ?_, fun q w0 w1 w2 w3 s hq => ?_, fun h w0 w1 w2 w3 rest hm => ?_⟩
  · refine ⟨_, Words.toList_getElem? ⟨w0, w1, w2, w3⟩ (wordIndex q), ?_⟩
    rw [← unlevel_extract]
    exact answers_decode_of_square ⟨w0, w1, w2, w3⟩ q s
  · exact answers_of_responseTo_eq_raise (decodeResponse_of_no_square _ hq)
  · obtain ⟨ho, hlow, htop⟩ := (and_maskS_iff h 4#4).1 hm
    rw [decode_of_opc_decode ho hlow htop, headerSquare_eq]

/-- Settles O8: a lookup in range in a READY block reads the square's slot of STORE, any other reports what fails, and the
row's zero bits are the decoder's check. -/
theorem decodesetReturnsSquareOrErrors : Obligations.DecodesetReturnsSquareOrErrors := by
  unfold Obligations.DecodesetReturnsSquareOrErrors
  refine ⟨fun k q s hk hq hr => answers_of_responseTo_eq_success ?_,
    fun t q s herr => answers_of_responseTo_eq_raise (lookupResponse_of_error herr), fun h tail hm => ?_⟩
  · rw [← unlevel_extract]
    exact lookupResponse_of_ready hr hk ⟨q, hq⟩
  · obtain ⟨ho, hz⟩ := (and_mask32_iff h 5#4).1 hm
    rw [decode_of_opc_decodeset ho hz, headerTable_eq, headerSquare_eq]

/-- Settles O9: SCORE answers what DECODESET answers (O8), and its beats are read back as DECODESET. -/
theorem scoreIsDecodeset : Obligations.ScoreIsDecodeset := by
  unfold Obligations.ScoreIsDecodeset
  obtain ⟨in_range, failing, -⟩ := decodesetReturnsSquareOrErrors
  refine ⟨fun t q => rfl, answers_score_iff, fun k q s hk hq hr => (answers_score_iff ..).2 (in_range k q s hk hq hr),
    fun t q s herr => (answers_score_iff ..).2 (failing t q s herr), fun t q hwf => ?_⟩
  rw [disassemble_of_decode_instr (decode_encode hwf)]
  rfl

/-- Settles O20: a lookup that fails reports what fails with RESULT 0, and one that answers gives the Value of a 4-bit field,
which is valid. -/
theorem lookupFailsLoudly : Obligations.LookupFailsLoudly := by
  unfold Obligations.LookupFailsLoudly
  intro t q s
  rcases lookupResponse_cases s.numTables s.built t q with ⟨e, reported, hresp⟩ | ⟨hok, f, hresp⟩
  · have answer := answers_of_responseTo_eq (i := .decodeset t q) hresp
    refine ⟨_, answer, (answers_score_iff ..).2 answer, fun _ => ⟨?_, header_result _ _⟩, fun no_error => ?_⟩
    · rwa [header_iob, header_nav]
    · rw [noErrorBits_header_iff] at no_error
      have no_report : e = {} := ErrorSet.eq_empty_of_any_eq_false no_error
      simp [no_report] at reported
  · have answer := answers_of_responseTo_eq (i := .decodeset t q) hresp
    refine ⟨_, answer, (answers_score_iff ..).2 answer, fun herr => absurd herr hok, fun _ => ?_⟩
    rw [header_result, success, toInt_ofInt_unlevel]
    exact validValue_unlevel f

end Sys2Proof.Machine

/-! PROOFS. What the obligations of spec/43_control.md need, and that family's theorems: an illegal request at the front of
the channel, and which registers a response reads. -/

namespace Sys2Proof.Machine

/-! ### Illegal requests -/

/-- Once its P(OPC) payload beats have arrived, a request with an illegal header is complete, and the beats after them are
what is left (R65, R69). -/
theorem decode_of_no_row {h : Beat} {tail : List Beat} (hrows : ∀ r ∈ opcodeRows, h &&& r.maskBits ≠ r.matchBits)
    (hlen : payloadLen h ≤ tail.length) : ∃ why, decode (h :: tail) = .illegal why (tail.drop (payloadLen h)) := by
  have packet := decode_illegal_packet hrows (List.length_take_of_le hlen) (tail.drop (payloadLen h))
  rwa [List.cons_append, List.take_append_drop] at packet

/-! ### What a response reads of the construction registers -/

/-- A response header copies READY and FAILED and reads no other register (R73). -/
theorem beats_congr {b b' : Built} (hready : b'.ready = b.ready) (hfailed : b'.failed = b.failed) (r : Response) :
    r.beats b' = r.beats b := by
  rw [Response.beats, Response.beats, Response.header, Response.header, hready, hfailed]

/-- A lookup reads READY and STORE alone (R145). -/
theorem lookupResponse_congr {b b' : Built} (hready : b'.ready = b.ready) (hstore : b'.store = b.store) (n : Nat)
    (t q : Int) : lookupResponse n b' t q = lookupResponse n b t q := by
  simp only [lookupResponse, memRead, hready, hstore]

/-- Every command but BOOTINFO reads at most READY and STORE (R162). -/
theorem responseTo_congr {i : Instr} (hi : i ≠ .bootinfo) {b b' : Built} (hready : b'.ready = b.ready)
    (hstore : b'.store = b.store) (n : Nat) : responseTo n b' i = responseTo n b i := by
  cases i with
  | bootinfo => exact absurd rfl hi
  | decodeset t q => exact lookupResponse_congr hready hstore n t q
  | score t q => exact lookupResponse_congr hready hstore n t q
  | validate | level | encode | decode => rfl

/-- Two blocks that differ only in their channels and BOOT_ registers answer every command but BOOTINFO alike (R162). -/
theorem exists_answers_both_of_ne_bootinfo {i : Instr} {s t : State} (hi : i ≠ .bootinfo)
    (hn : t.numTables = s.numTables) (hready : t.built.ready = s.built.ready)
    (hfailed : t.built.failed = s.built.failed) (hstore : t.built.store = s.built.store) :
    ∃ bs, Answers i s bs ∧ Answers i t bs :=
  exists_answers_both (by rw [hn, beats_congr hready hfailed, responseTo_congr hi hready hstore])

/-! ### The obligations -/

/-- Settles O11: no row means an illegal header, so the step answers ILL once the packet is complete. -/
theorem illegalRequestAnswersIll : Obligations.IllegalRequestAnswersIll := by
  unfold Obligations.IllegalRequestAnswersIll
  intro s h tail ho hn hpending hrows hlen
  obtain ⟨why, hd⟩ := decode_of_no_row hrows hlen
  have hf : fetch s = .illegal why (tail.drop (payloadLen h)) := by rw [fetch, State.pending, hpending, hd]
  rw [step_of_fetch_illegal ((holding_eq_false_iff s).2 ⟨ho, hn⟩) hf, execIllegal_eq, State.respond, Response.beats,
    header_eq_responseWord]
  rfl

/-- Settles O19: the response reads READY and STORE, its header READY and FAILED, and all three are the same. -/
theorem onlyBootinfoReadsBootRegisters : Obligations.OnlyBootinfoReadsBootRegisters := by
  unfold Obligations.OnlyBootinfoReadsBootRegisters
  exact fun _ _ _ _ _ _ _ hi => exists_answers_both_of_ne_bootinfo hi rfl rfl rfl rfl

/-- Settles O10: the fields of BOOTINFO's response are the BOOT_ registers, and the decoder reads header 6 as BOOTINFO. -/
theorem bootinfoReportsConstruction : Obligations.BootinfoReportsConstruction := by
  unfold Obligations.BootinfoReportsConstruction
  refine ⟨fun s => ?_, fun tail => ?_⟩
  · rw [answers_iff, responseTo, Response.beats, header_eq_responseWord]
    rfl
  · have hd : decodeHeader 6#64 = .ok .bootinfo := by decide
    rw [decode, hd]

end Sys2Proof.Machine

/-! PROOFS. What the obligations of spec/60_exceptions.md need, and that family's theorems: which kinds of error a response
can report, that no step stops, and what a FAILED block answers. -/

namespace Sys2Proof.Machine

/-! ### The error bits of a response header -/

theorem header_inv (r : Response) (b : Built) : (r.header b).getLsbD 0 = r.errors.inv :=
  getLsbD_eq_of_bit (by rw [header_toNat]; omega)

theorem header_oor (r : Response) (b : Built) : (r.header b).getLsbD 1 = r.errors.oor :=
  getLsbD_eq_of_bit (by rw [header_toNat]; omega)

theorem header_ill (r : Response) (b : Built) : (r.header b).getLsbD 4 = r.errors.ill :=
  getLsbD_eq_of_bit (by rw [header_toNat]; omega)

/-- Only the bits 24 and 25 of a response header, READY and FAILED, come from what reset built (R73). -/
theorem header_fields_congr (r : Response) (b b' : Built) :
    (r.header b).extractLsb' 0 24 = (r.header b').extractLsb' 0 24 ∧
      (r.header b).extractLsb' 26 38 = (r.header b').extractLsb' 26 38 := by
  simp only [← BitVec.toNat_inj, field_toNat, header_toNat]
  omega

/-! ### The kinds of error a command can report -/

/-- Every kind present in `e` is present in `f`. -/
structure ErrorSet.Within (e f : ErrorSet) : Prop where
  inv : e.inv = true → f.inv = true
  oor : e.oor = true → f.oor = true
  iob : e.iob = true → f.iob = true
  nav : e.nav = true → f.nav = true
  ill : e.ill = true → f.ill = true

/-- The kinds a command can report, in a block that is READY or not (R170). -/
def possibleErrors (ready : Bool) : Instr → ErrorSet
  | .validate _ | .level _ | .encode _ => { inv := true, oor := true }
  | .decode _ _ _ _ _ => { iob := true }
  | .decodeset _ _ | .score _ _ => { iob := true, nav := !ready }
  | .bootinfo => {}

theorem domain_command_of_possibleErrors {ready : Bool} {i : Instr}
    (h : (possibleErrors ready i).inv = true ∨ (possibleErrors ready i).oor = true) :
    (∃ v, i = .validate v) ∨ (∃ v, i = .level v) ∨ ∃ vs, i = .encode vs := by
  cases i with
  | validate v => exact .inl ⟨v, rfl⟩
  | level v => exact .inr (.inl ⟨v, rfl⟩)
  | encode vs => exact .inr (.inr ⟨vs, rfl⟩)
  | decode | decodeset | score | bootinfo => simp [possibleErrors] at h

theorem indexed_command_of_possibleErrors {ready : Bool} {i : Instr} (h : (possibleErrors ready i).iob = true) :
    (∃ q w0 w1 w2 w3, i = .decode q w0 w1 w2 w3) ∨ (∃ t q, i = .decodeset t q) ∨ ∃ t q, i = .score t q := by
  cases i with
  | decode q w0 w1 w2 w3 => exact .inl ⟨q, w0, w1, w2, w3, rfl⟩
  | decodeset t q => exact .inr (.inl ⟨t, q, rfl⟩)
  | score t q => exact .inr (.inr ⟨t, q, rfl⟩)
  | validate | level | encode | bootinfo => simp [possibleErrors] at h

theorem lookup_of_possibleErrors {ready : Bool} {i : Instr} (h : (possibleErrors ready i).nav = true) :
    ((∃ t q, i = .decodeset t q) ∨ ∃ t q, i = .score t q) ∧ ready = false := by
  cases i with
  | decodeset t q => exact ⟨.inl ⟨t, q, rfl⟩, by simpa [possibleErrors] using h⟩
  | score t q => exact ⟨.inr ⟨t, q, rfl⟩, by simpa [possibleErrors] using h⟩
  | validate | level | encode | decode | bootinfo => simp [possibleErrors] at h

theorem possibleErrors_ill (ready : Bool) (i : Instr) : (possibleErrors ready i).ill = false := by
  cases i <;> rfl

theorem ErrorSet.empty_within (f : ErrorSet) : ErrorSet.Within {} f :=
  ⟨nofun, nofun, nofun, nofun, nofun⟩

/-- The domain check reports its two constraints alone (R100). -/
theorem validate_within (v : Int) : (validate v).Within { inv := true, oor := true } :=
  ⟨fun _ => rfl, fun _ => rfl, nofun, nofun, nofun⟩

/-- LEVEL reports what the domain check reports (R104). -/
theorem levelResponse_errors (v : Int) : (levelResponse v).errors = validate v := by
  by_cases hv : ValidValue v
  · rw [levelResponse_of_validValue hv, ErrorSet.eq_empty_of_any_eq_false ((validate_any_eq_false_iff v).2 hv)]
    rfl
  · rw [levelResponse_of_not_validValue hv]
    rfl

/-- A failure of packing reports the domain check of the value it names (R120). -/
theorem errors_of_packFrom_eq_failure {vs : List Int} {s : Nat} {w : Words} {e : ErrorSet} {q : Nat} {v : Int}
    (h : packFrom vs s w = .failure e q v) : e = validate v := by
  induction vs generalizing s w with
  | nil => cases h
  | cons x vs ih =>
    rw [packFrom] at h
    split_ifs at h
    · cases h; rfl
    · exact ih h

theorem encodeResponse_errors_within (vs : List Int) :
    (encodeResponse vs).errors.Within { inv := true, oor := true } := by
  rw [encodeResponse]
  cases h : pack vs with
  | words w => exact ErrorSet.empty_within _
  | failure e q v =>
    obtain rfl := errors_of_packFrom_eq_failure h
    exact validate_within v

theorem decodeResponse_errors_within (q : Int) (w : Words) : (decodeResponse q w).errors.Within { iob := true } := by
  rw [decodeResponse]
  cases squareOf q with
  | none => exact ⟨nofun, nofun, fun _ => rfl, nofun, nofun⟩
  | some k => exact ErrorSet.empty_within _

/-- A lookup reports what `lookupErrors` finds, which is nothing when it answers (R145). -/
theorem lookupResponse_errors (n : Nat) (b : Built) (t q : Int) :
    (lookupResponse n b t q).errors = lookupErrors n b.ready t q := by
  rw [lookupResponse]
  split
  next k p ht hq =>
    split_ifs with hr
    · simp [lookupErrors, ht, hq, hr, success]
    · rfl
  next => rfl

theorem lookupResponse_errors_within (n : Nat) (b : Built) (t q : Int) :
    (lookupResponse n b t q).errors.Within { iob := true, nav := !b.ready } := by
  rw [lookupResponse_errors]
  exact ⟨nofun, nofun, fun _ => rfl, id, nofun⟩

theorem responseTo_errors_within (n : Nat) (b : Built) (i : Instr) :
    (responseTo n b i).errors.Within (possibleErrors b.ready i) := by
  cases i with
  | validate v =>
    rw [responseTo, validateResponse_eq_raise]
    exact validate_within v
  | level v =>
    rw [responseTo, levelResponse_errors]
    exact validate_within v
  | encode vs => exact encodeResponse_errors_within vs
  | decode q w0 w1 w2 w3 => exact decodeResponse_errors_within q _
  | decodeset t q => exact lookupResponse_errors_within n b t q
  | score t q => exact lookupResponse_errors_within n b t q
  | bootinfo => exact ErrorSet.empty_within _

/-! ### A FAILED block -/

theorem construct_failed_eq_not_ready (n : Nat) (data : Nat → Nat → BitVec 32) :
    (construct n data).failed = !(construct n data).ready := by
  rcases construct_cases n data with ⟨m, hm, -⟩ | ⟨k, q, -, hb⟩
  · rw [hm]
    rfl
  · rw [hb]
    rfl

/-- Only the lookups and BOOTINFO read the number of tables or what reset built (R179). -/
theorem responseTo_eq_of_reads_nothing {i : Instr} (hd : ∀ t q, i ≠ .decodeset t q) (hs : ∀ t q, i ≠ .score t q)
    (hb : i ≠ .bootinfo) (n n' : Nat) (b b' : Built) : responseTo n b i = responseTo n' b' i := by
  cases i with
  | decodeset t q => exact absurd rfl (hd t q)
  | score t q => exact absurd rfl (hs t q)
  | bootinfo => exact absurd rfl hb
  | validate | level | encode | decode => rfl

/-! ### The obligations -/

/-- Settles O14: the error bits are the response's kinds, and these are among the kinds its command can report. -/
theorem errorKindsByCommand : Obligations.ErrorKindsByCommand := by
  unfold Obligations.ErrorKindsByCommand
  intro i s
  refine ⟨_, _, (answers_iff i s _).2 rfl, ?_⟩
  rw [header_inv, header_oor, header_iob, header_nav, header_ill]
  obtain ⟨inv, oor, iob, nav, ill⟩ := responseTo_errors_within s.numTables s.built i
  have not_ill := Bool.eq_false_of_not_eq_true fun h => by simpa [possibleErrors_ill] using ill h
  exact ⟨not_ill, fun h => domain_command_of_possibleErrors (h.imp inv oor),
    fun h => indexed_command_of_possibleErrors (iob h), fun h => lookup_of_possibleErrors (nav h)⟩

/-- Settles O16: a holding block stays as it is, and any other answers a packet or waits for the rest of one. -/
theorem stepNeverStops : Obligations.StepNeverStops := by
  unfold Obligations.StepNeverStops
  intro s
  cases hh : s.holding with
  | true => exact ⟨s, step_of_holding hh⟩
  | false =>
    rcases step_effect hh with ⟨rest, r, hs⟩ | ⟨-, hs⟩
    · exact ⟨_, hs⟩
    · exact ⟨_, hs⟩

/-- Settles O32: an invalid entry leaves READY clear and FAILED set, so a lookup reports NAV, and the response to any command
that reads neither STORE nor the BOOT_ registers is the same in every block but for the two copied bits. -/
theorem failedBlockAnswersLookupsWithNav : Obligations.FailedBlockAnswersLookupsWithNav := by
  unfold Obligations.FailedBlockAnswersLookupsWithNav
  intro data s hbad hb
  have hready : s.built.ready = false := by
    rw [← Bool.not_eq_true, hb, construct_ready_iff]
    exact hbad
  have hfailed : s.built.failed = true := by
    rw [hb, construct_failed_eq_not_ready, ← hb, hready]
    rfl
  refine ⟨hready, hfailed, fun t q => ?_, fun i u not_decodeset not_score not_bootinfo => ?_⟩
  · have answer := answers_of_responseTo_eq (i := .decodeset t q) (lookupResponse_of_error (.inl hready))
    refine ⟨_, answer, (answers_score_iff ..).2 answer, ?_, ?_, header_result _ _⟩
    · simp [header_nav, raise, hready]
    · rw [header_failed, hfailed]
  · have same_response := responseTo_eq_of_reads_nothing not_decodeset not_score not_bootinfo
      u.numTables s.numTables u.built s.built
    exact ⟨_, _, _, (answers_iff i s _).2 rfl, (answers_iff i u _).2 (by rw [same_response, Response.beats]),
      header_fields_congr _ _ _⟩

end Sys2Proof.Machine

/-! PROOFS. What the obligations of spec/70_reset_and_hazards.md need, and that family's theorems: what construction leaves
for valid contents and for contents with a first invalid entry, that a block which is being reset accepts nothing, that a
host which takes every response ends a stall, and how a host counts the beats of a response. -/

namespace Sys2Proof.Machine

/-! ### What construction leaves -/

/-- Slot `j` of word 4k + i of STORE is the slot of square 16i + j of table `k` (R42). -/
theorem storeSlot_eq_extractLsb' (m : Memory) (k : Nat) (i : Fin 4) (j : Fin 16) :
    storeSlot m k ⟨16 * i.val + j.val, by omega⟩ = (m.read (4 * k + i.val)).extractLsb' (4 * j.val) 4 := by
  rw [← slotAt_readTable, slotAt_eq_extractLsb', get_readTable]

/-- With every entry valid, construction succeeds (R192, R193). -/
theorem construct_of_allValid {n : Nat} {data : Nat → Nat → BitVec 32} (h : AllValid n data) :
    ∃ m, construct n data = Built.success m := by
  rcases construct_cases n data with ⟨m, hm, -⟩ | ⟨k, q, ⟨hk, hq, hbad, -⟩, -⟩
  · exact ⟨m, hm⟩
  · exact absurd (h k q hk hq) hbad

/-- Of two entries one comes first in (table, square) order, so only one is the first invalid entry. -/
theorem firstInvalid_unique {n : Nat} {data : Nat → Nat → BitVec 32} {k s k' s' : Nat} (h : FirstInvalid n data k s)
    (h' : FirstInvalid n data k' s') : k = k' ∧ s = s' := by
  obtain ⟨-, hs, hbad, hbefore⟩ := h
  obtain ⟨-, hs', hbad', hbefore'⟩ := h'
  have not_earlier : ¬ (k < k' ∨ k = k' ∧ s < s') := fun he => hbad (hbefore' k s hs he)
  have not_later : ¬ (k' < k ∨ k' = k ∧ s' < s) := fun he => hbad' (hbefore k' s' hs' he)
  omega

/-- With an invalid entry, construction fails at the first one (R192). -/
theorem construct_of_firstInvalid {n : Nat} {data : Nat → Nat → BitVec 32} {k s : Nat} (h : FirstInvalid n data k s) :
    construct n data =
      { ready := false, failed := true, bootInv := (validate (data k s).toInt).inv,
        bootOor := (validate (data k s).toInt).oor, bootTable := BitVec.ofNat 8 k, bootSquare := BitVec.ofNat 6 s,
        bootValue := data k s, store := [] } := by
  rcases construct_cases n data with ⟨m, -, -, -, hv, -⟩ | ⟨k', s', h', hb⟩
  · obtain ⟨hk, hs, hbad, -⟩ := h
    exact absurd (hv k s hk hs) hbad
  · obtain ⟨rfl, rfl⟩ := firstInvalid_unique h h'
    exact hb

/-! ### The channels while a reset lasts, and when a stall ends -/

/-- A closed block accepts none of the beats the host offers (R197). -/
theorem sendBeats_of_closed {s : State} (h : s.chanOpen = false) (bs : List Beat) : s.sendBeats bs = s := by
  induction bs with
  | nil => rfl
  | cons b rest ih => rw [State.sendBeats, sendBeat_of_closed s b h, ih]

/-- Taking every waiting beat empties the response channel, and a stall is over with the last one (R203). -/
theorem takeBeats_all {s : State} (h : s.stalled = true → s.respOut ≠ []) :
    s.takeBeats s.respOut.length = { s with respOut := [], stalled := false } := by
  generalize hr : s.respOut = out
  induction out generalizing s with
  | nil =>
    have not_stalled : s.stalled = false := Bool.eq_false_of_not_eq_true fun hs => h hs hr
    have unchanged : { s with respOut := [], stalled := false } = s := by rw [← not_stalled, ← hr]
    exact unchanged.symm
  | cons b rest ih =>
    have taken : s.takeBeat.respOut = rest := by simp [hr]
    have still_pending : s.takeBeat.stalled = true → s.takeBeat.respOut ≠ [] := by simp
    rw [List.length_cons, State.takeBeats, ih still_pending taken]
    rfl

/-! ### Counting the beats of a response -/

theorem isEncodeRequest_eq_false {i : Instr} (h : ∀ vs, i ≠ .encode vs) : isEncodeRequest i = false := by
  cases i with
  | encode vs => exact absurd rfl (h vs)
  | validate | level | decode | decodeset | score | bootinfo => rfl

/-- A host counts four payload beats exactly after a response to ENCODE without an error (R70). -/
theorem responsePayloadLen_header (isEncode : Bool) (r : Response) (b : Built) :
    responsePayloadLen isEncode (r.header b) = if isEncode = true ∧ r.errors.any = false then 4 else 0 := by
  simp only [responsePayloadLen, Bool.and_eq_true, beq_iff_eq, ← noErrorBits_header_iff r b]

/-- The count is the length of the payload, whatever the response (R70, R74). -/
theorem responsePayloadLen_responseTo (n : Nat) (b : Built) (i : Instr) :
    responsePayloadLen (isEncodeRequest i) ((responseTo n b i).header b) = (responseTo n b i).payload.length := by
  rw [responsePayloadLen_header]
  have form := responseTo_form n b i
  generalize responseTo n b i = r at form ⊢
  cases form with
  | result v hi _ => simp [success, isEncodeRequest_eq_false hi]
  | errors e hi _ => simp [raise, isEncodeRequest_eq_false hi]
  | words vs w => rfl
  | offending vs e q v he => simp [raiseAt, he]
  | bootinfo => rfl

/-! ### The obligations -/

/-- Settles O26: construction succeeds, and each slot of STORE holds the level of its entry. -/
theorem constructionPacksValidTables : Obligations.ConstructionPacksValidTables := by
  unfold Obligations.ConstructionPacksValidTables
  intro n data hv
  have slots : ∀ (k : Nat) (i : Fin 4) (j : Fin 16), k < n →
      ((construct n data).store.read (4 * k + i.val)).extractLsb' (4 * j.val) 4 =
        BitVec.ofInt 4 ((data k (16 * i.val + j.val)).toInt / 5 + 7) := by
    intro k i j hk
    rw [← storeSlot_eq_extractLsb', storeSlot_construct ((construct_ready_iff n data).2 hv) hk]
    rfl
  obtain ⟨m, hm⟩ := construct_of_allValid hv
  rw [hm] at slots ⊢
  exact ⟨rfl, rfl, rfl, rfl, rfl, rfl, rfl, slots⟩

/-- Settles O27: construction fails at the first invalid entry, whose table and square fit their registers. -/
theorem constructionRecordsFirstInvalidEntry : Obligations.ConstructionRecordsFirstInvalidEntry := by
  unfold Obligations.ConstructionRecordsFirstInvalidEntry
  intro n data k s hn h
  rw [construct_of_firstInvalid h]
  obtain ⟨hk, hs, -, -⟩ := h
  have table_fits : (BitVec.ofNat 8 k).toNat = k := by rw [BitVec.toNat_ofNat]; omega
  have square_fits : (BitVec.ofNat 6 s).toNat = s := by rw [BitVec.toNat_ofNat]; omega
  exact ⟨rfl, rfl, rfl, rfl, table_fits, square_fits, rfl, fun _ => rfl⟩

/-- Settles O41: a stalled block holds; once every beat is taken no stall is left, and the open block runs the request at its
front. -/
theorem takingResponsesLiftsTheStall : Obligations.TakingResponsesLiftsTheStall := by
  unfold Obligations.TakingResponsesLiftsTheStall
  refine ⟨fun s hn => step_of_holding (by simp [State.holding, hn]), fun s i rest hi ho hd => ?_⟩
  rw [takeBeats_all hi.stalled_pending]
  have runs := stepRunsDecodedCommand { s with respOut := [], stalled := false } i rest ho rfl hd
  exact ⟨_, _, runs.trans (exec_eq i _)⟩

/-- Settles O42, by induction on the commands: what the host counts is the payload's length, so the split falls at the next
response's header. -/
theorem hostMatchesResponsesByOrder : Obligations.HostMatchesResponsesByOrder := by
  unfold Obligations.HostMatchesResponsesByOrder
  intro is n b
  induction is with
  | nil => rfl
  | cons i is ih =>
    simp [responseStream, Response.beats, matchResponses, responsePayloadLen_responseTo, ih]

/-- Settles O43: the beat meant as a header is payload beat 31, whose halves are the values of squares 62 and 63 (O5). -/
theorem missingPayloadBeatSwallowsNextHeader : Obligations.MissingPayloadBeatSwallowsNextHeader := by
  unfold Obligations.MissingPayloadBeatSwallowsNextHeader
  intro payload h rest s hlen ho hn hb hin
  obtain ⟨vs, hd, hvs, hbeat⟩ := encodePayloadCarriesValuesInSquareOrder (payload ++ [h]) rest (by simp [hlen])
  have last : (payload ++ [h])[31]? = some h := by simp [← hlen]
  obtain ⟨c, hc, low⟩ := hbeat 62 (by decide)
  obtain rfl : h = c := Option.some.inj (last.symm.trans hc)
  obtain ⟨c, hc, high⟩ := hbeat 63 (by decide)
  obtain rfl : h = c := Option.some.inj (last.symm.trans hc)
  have front : decode (s.reqBuf ++ s.reqIn) = .instr (.encode vs) rest := by simpa [hb, hin] using hd
  refine ⟨vs, _, _, hvs, low, high, by simp, by simp, ?_⟩
  rw [stepRunsDecodedCommand s _ rest ho hn front, ← hb]

/-- Settles O25: the two events of a reset write every field but the number of tables, and between them the channel is
closed. -/
theorem resetDiscardsAllState : Obligations.ResetDiscardsAllState := by
  unfold Obligations.ResetDiscardsAllState
  have after : ∀ (s : State) (data : Nat → Nat → BitVec 32), s.doReset data = State.afterReset s.numTables data :=
    fun _ _ => rfl
  refine ⟨fun s data => ⟨rfl, rfl, rfl, rfl, rfl, rfl, after s data, sendBeats_of_closed (resetBegin_chanOpen s),
    step_of_holding rfl⟩, fun s h => ?_⟩
  rw [after, h]
  rfl

end Sys2Proof.Machine
